-- ==== Sys2Proof/Word.lean ====
section
/-! DEFINITION. The unit's word types: the 32-bit word of rule R8, the 26-bit word address of the host
port (rule R32) and the number of a scalar register (rule R11). -/

namespace Sys2Proof

/-- A word: 32 bits, read as an unsigned integer in `[0, 2^32)` (rule R8). -/
abbrev Word := BitVec 32

/-- A word address on the host port: 26 bits (rule R32). -/
abbrev PortAddr := BitVec 26

/-- The number of a scalar register, `x0` to `x15` (rule R11); all sixteen are ordinary registers. -/
abbrev Reg := Fin 16

end Sys2Proof
end

