-- ==== Sys2Proof/Syntax.lean ====
section
/-! DEFINITION. The syntax of the eighteen commands of rule R53, one constructor per row of the opcode
table, with the pseudo-commands of rule R61. -/

namespace Sys2Proof

/-- A coefficient bank: `A` is number 0, `B` is number 1 (rule R21). -/
inductive BankId where
  | A
  | B
  deriving DecidableEq, Repr

/-- The direction of a transform: `fwd` is 0, `inv` is 1 (rule R54). -/
inductive Dir where
  | fwd
  | inv
  deriving DecidableEq, Repr

/-- The commands (rule R53), operands in the order of that rule's "Operands" column. The immediates `t`,
`k` and `logn` are unsigned integers (rule R55); their field widths are checked by `Instr.WellFormed`. -/
inductive Instr where
  /-- raw addition, rule R71 -/
  | add (rd ra rb : Reg)
  /-- raw subtraction, rule R72 -/
  | sub (rd ra rb : Reg)
  /-- unsigned comparison, rule R73 -/
  | lt (rd ra rb : Reg)
  /-- modular addition, rule R74 -/
  | addm (rd ra rb : Reg)
  /-- modular subtraction, rule R75 -/
  | subm (rd ra rb : Reg)
  /-- modular multiplication, rule R76 -/
  | mulm (rd ra rb : Reg)
  /-- modular exponentiation, rule R77 -/
  | powm (rd ra rb : Reg)
  /-- load a table entry, rule R94 -/
  | ldt (rd : Reg) (t k : Nat)
  /-- load a coefficient, rule R131 -/
  | ldc (rd : Reg) (bd : BankId) (ra : Reg)
  /-- store a coefficient, rule R132 (`rd` is the register whose value is stored) -/
  | stc (rd : Reg) (bd : BankId) (ra : Reg)
  /-- set the transform length, rule R102 -/
  | setn (logn : Nat)
  /-- bit-reversal permutation, rule R103 -/
  | brev (bd : BankId)
  /-- all butterfly stages, rule R105 -/
  | bfly (bd : BankId) (dir : Dir)
  /-- inverse scaling, rule R106 -/
  | scal (bd : BankId)
  /-- the whole transform, rule R107 -/
  | ntt (bd : BankId) (dir : Dir)
  /-- pointwise product, rule R130 -/
  | pmul (bd bs : BankId)
  /-- carry propagation, rule R120 -/
  | norm (bd : BankId)
  /-- drop leading zeros, rule R122 -/
  | trim (bd : BankId)
  deriving DecidableEq, Repr

/-- `FNTT bd` (rule R61). -/
def Instr.fntt (bd : BankId) : Instr := .ntt bd .fwd
/-- `INTT bd` (rule R61). -/
def Instr.intt (bd : BankId) : Instr := .ntt bd .inv
/-- `SQRM rd, ra` (rule R61). -/
def Instr.sqrm (rd ra : Reg) : Instr := .mulm rd ra ra

end Sys2Proof
end

