-- ==== Sys2Proof/WellFormed.lean ====
section
/-! DEFINITION. Which instructions can be written as a command word: the immediates fit their fields
(rules R51, R54, R55). A well-formed instruction may still fault when it runs (`LDT` of table 3, `SETN 24`). -/

namespace Sys2Proof

/-- `t` fits bits [6:5] and `k`, `logn` fit bits [4:0] (rule R51). The register, bank and direction
fields have no value that does not fit. -/
def Instr.wellFormed : Instr → Bool
  | .ldt _ t k => t < 4 && k < 32
  | .setn logn => logn < 32
  | .add _ _ _ | .sub _ _ _ | .lt _ _ _ | .addm _ _ _ | .subm _ _ _ | .mulm _ _ _ | .powm _ _ _
  | .ldc _ _ _ | .stc _ _ _ | .brev _ | .bfly _ _ | .scal _ | .ntt _ _ | .pmul _ _ | .norm _
  | .trim _ => true

/-- The instruction can be encoded. -/
abbrev Instr.WellFormed (i : Instr) : Prop := i.wellFormed = true

end Sys2Proof
end

