-- ==== Sys2Proof/Decode.lean ====
section
/-! DEFINITION. The decoder of rule R62, total on all command words and rejecting by name, and the
encoder written from the bit patterns of rule R52. -/

namespace Sys2Proof

/-! ## The opcode map -/

/-- A row of the opcode map (rule R53). -/
inductive Op where
  | add | sub | lt | addm | subm | mulm | powm | ldt | ldc | stc
  | setn | brev | bfly | scal | ntt | pmul | norm | trim
  deriving DecidableEq, Repr

/-- Why a command word spells no command (rule R57). -/
inductive Illegal where
  /-- bits [31:24] are no opcode of the map -/
  | unknownOpcode
  /-- a bit the command's mask requires to be zero is set (rule R56) -/
  | nonZeroField
  deriving DecidableEq, Repr

/-- The row whose `op` equals the given opcode byte, if any (rule R53). -/
def opOfByte (b : BitVec 8) : Option Op :=
  if b = 0x01 then some .add
  else if b = 0x02 then some .sub
  else if b = 0x03 then some .lt
  else if b = 0x04 then some .addm
  else if b = 0x05 then some .subm
  else if b = 0x06 then some .mulm
  else if b = 0x07 then some .powm
  else if b = 0x10 then some .ldt
  else if b = 0x11 then some .ldc
  else if b = 0x12 then some .stc
  else if b = 0x20 then some .setn
  else if b = 0x21 then some .brev
  else if b = 0x22 then some .bfly
  else if b = 0x23 then some .scal
  else if b = 0x24 then some .ntt
  else if b = 0x25 then some .pmul
  else if b = 0x30 then some .norm
  else if b = 0x31 then some .trim
  else none

/-- The "match" column of rule R53. -/
def Op.pattern : Op → Word
  | .add => 0x01000000
  | .sub => 0x02000000
  | .lt => 0x03000000
  | .addm => 0x04000000
  | .subm => 0x05000000
  | .mulm => 0x06000000
  | .powm => 0x07000000
  | .ldt => 0x10000000
  | .ldc => 0x11000000
  | .stc => 0x12000000
  | .setn => 0x20000000
  | .brev => 0x21000000
  | .bfly => 0x22000000
  | .scal => 0x23000000
  | .ntt => 0x24000000
  | .pmul => 0x25000000
  | .norm => 0x30000000
  | .trim => 0x31000000

/-- The "mask" column of rule R53: a 1 at every bit that is the opcode or must be zero. -/
def Op.mask : Op → Word
  | .add | .sub | .lt | .addm | .subm | .mulm | .powm => 0xFF000FFF
  | .ldt => 0xFF0FFF80
  | .ldc | .stc => 0xFF00FEFF
  | .setn => 0xFFFFFFE0
  | .brev | .scal | .norm | .trim => 0xFFFFFEFF
  | .bfly | .ntt => 0xFFFFFEFE
  | .pmul => 0xFFFFFCFF

/-! ## The fields of a command word (rule R51) -/

/-- `op = c[31:24]` -/
def fieldOp (c : Word) : BitVec 8 := c.extractLsb' 24 8
/-- `rd = c[23:20]` -/
def fieldRd (c : Word) : Reg := (c.extractLsb' 20 4).toFin
/-- `ra = c[19:16]` -/
def fieldRa (c : Word) : Reg := (c.extractLsb' 16 4).toFin
/-- `rb = c[15:12]` -/
def fieldRb (c : Word) : Reg := (c.extractLsb' 12 4).toFin
/-- `t = c[6:5]` -/
def fieldT (c : Word) : Nat := (c.extractLsb' 5 2).toNat
/-- `imm5 = c[4:0]`, unsigned (rule R55) -/
def fieldImm5 (c : Word) : Nat := (c.extractLsb' 0 5).toNat

/-- The bank a bank bit names (rule R54). -/
def bankOfBit (b : BitVec 1) : BankId := if b = 0 then .A else .B
/-- The direction bit `c[0]` (rule R54). -/
def dirOfBit (b : BitVec 1) : Dir := if b = 0 then .fwd else .inv

/-- `bs = c[9]` -/
def fieldBs (c : Word) : BankId := bankOfBit (c.extractLsb' 9 1)
/-- `bd = c[8]` -/
def fieldBd (c : Word) : BankId := bankOfBit (c.extractLsb' 8 1)
/-- `dir = c[0]` -/
def fieldDir (c : Word) : Dir := dirOfBit (c.extractLsb' 0 1)

/-- The command of a row with the fields of the word, operands as the row's "Operands" column lists
them (rule R53). -/
def Op.build : Op → Word → Instr
  | .add, c => .add (fieldRd c) (fieldRa c) (fieldRb c)
  | .sub, c => .sub (fieldRd c) (fieldRa c) (fieldRb c)
  | .lt, c => .lt (fieldRd c) (fieldRa c) (fieldRb c)
  | .addm, c => .addm (fieldRd c) (fieldRa c) (fieldRb c)
  | .subm, c => .subm (fieldRd c) (fieldRa c) (fieldRb c)
  | .mulm, c => .mulm (fieldRd c) (fieldRa c) (fieldRb c)
  | .powm, c => .powm (fieldRd c) (fieldRa c) (fieldRb c)
  | .ldt, c => .ldt (fieldRd c) (fieldT c) (fieldImm5 c)
  | .ldc, c => .ldc (fieldRd c) (fieldBd c) (fieldRa c)
  | .stc, c => .stc (fieldRd c) (fieldBd c) (fieldRa c)
  | .setn, c => .setn (fieldImm5 c)
  | .brev, c => .brev (fieldBd c)
  | .bfly, c => .bfly (fieldBd c) (fieldDir c)
  | .scal, c => .scal (fieldBd c)
  | .ntt, c => .ntt (fieldBd c) (fieldDir c)
  | .pmul, c => .pmul (fieldBd c) (fieldBs c)
  | .norm, c => .norm (fieldBd c)
  | .trim, c => .trim (fieldBd c)

/-- Decoding a command word (rule R62): the opcode selects a row, and the word is that row's command
only if its must-be-zero bits are zero. -/
def decode (c : Word) : Except Illegal Instr :=
  match opOfByte (fieldOp c) with
  | none => .error .unknownOpcode
  | some row => if c &&& row.mask = row.pattern then .ok (row.build c) else .error .nonZeroField

/-! ## The encoder (rule R52) -/

/-- The number of a bank as one bit. -/
def BankId.bit : BankId → BitVec 1
  | .A => 0
  | .B => 1

/-- The number of a direction as one bit. -/
def Dir.bit : Dir → BitVec 1
  | .fwd => 0
  | .inv => 1

/-- Format `S`: `oooooooo dddd aaaa bbbb 00 0 0 0 00 00000`. -/
def wordS (op : BitVec 8) (rd ra rb : Reg) : Word :=
  op ++ BitVec.ofFin (w := 4) rd ++ BitVec.ofFin (w := 4) ra ++ BitVec.ofFin (w := 4) rb ++ 0#12

/-- Format `T`: `oooooooo dddd 0000 0000 00 0 0 0 tt iiiii`. -/
def wordT (op : BitVec 8) (rd : Reg) (t k : Nat) : Word :=
  op ++ BitVec.ofFin (w := 4) rd ++ 0#13 ++ BitVec.ofNat 2 t ++ BitVec.ofNat 5 k

/-- Format `M`: `oooooooo dddd aaaa 0000 00 0 e 0 00 00000`. -/
def wordM (op : BitVec 8) (rd : Reg) (bd : BankId) (ra : Reg) : Word :=
  op ++ BitVec.ofFin (w := 4) rd ++ BitVec.ofFin (w := 4) ra ++ 0#7 ++ bd.bit ++ 0#8

/-- Format `V`: `oooooooo 0000 0000 0000 00 s e 0 00 iiiii`; a field the command does not use is 0. -/
def wordV (op : BitVec 8) (bs bd : BitVec 1) (imm5 : BitVec 5) : Word :=
  op ++ 0#14 ++ bs ++ bd ++ 0#3 ++ imm5

/-- The command word of an instruction (rules R52, R53). -/
def encode : Instr → Word
  | .add rd ra rb => wordS 0x01 rd ra rb
  | .sub rd ra rb => wordS 0x02 rd ra rb
  | .lt rd ra rb => wordS 0x03 rd ra rb
  | .addm rd ra rb => wordS 0x04 rd ra rb
  | .subm rd ra rb => wordS 0x05 rd ra rb
  | .mulm rd ra rb => wordS 0x06 rd ra rb
  | .powm rd ra rb => wordS 0x07 rd ra rb
  | .ldt rd t k => wordT 0x10 rd t k
  | .ldc rd bd ra => wordM 0x11 rd bd ra
  | .stc rd bd ra => wordM 0x12 rd bd ra
  | .setn logn => wordV 0x20 0 0 (BitVec.ofNat 5 logn)
  | .brev bd => wordV 0x21 0 bd.bit 0
  | .bfly bd dir => wordV 0x22 0 bd.bit (0#4 ++ dir.bit)
  | .scal bd => wordV 0x23 0 bd.bit 0
  | .ntt bd dir => wordV 0x24 0 bd.bit (0#4 ++ dir.bit)
  | .pmul bd bs => wordV 0x25 bs.bit bd.bit 0
  | .norm bd => wordV 0x30 0 bd.bit 0
  | .trim bd => wordV 0x31 0 bd.bit 0

/-- The row of the opcode map an instruction belongs to. -/
def Instr.op : Instr → Op
  | .add _ _ _ => .add
  | .sub _ _ _ => .sub
  | .lt _ _ _ => .lt
  | .addm _ _ _ => .addm
  | .subm _ _ _ => .subm
  | .mulm _ _ _ => .mulm
  | .powm _ _ _ => .powm
  | .ldt _ _ _ => .ldt
  | .ldc _ _ _ => .ldc
  | .stc _ _ _ => .stc
  | .setn _ => .setn
  | .brev _ => .brev
  | .bfly _ _ => .bfly
  | .scal _ => .scal
  | .ntt _ _ => .ntt
  | .pmul _ _ => .pmul
  | .norm _ => .norm
  | .trim _ => .trim

/-! ## The opcode table's words -/

/-- The instruction the decoder reads from an opcode-table word: a command is one 32-bit word (rule
R50), so the table's bits are the word's bits; the bits above `nbits` are zero. -/
def decodeTableWord (nbits w : Nat) : Option Instr :=
  match decode (BitVec.ofNat 32 (w % 2 ^ nbits)) with
  | .ok i => some i
  | .error _ => none

end Sys2Proof
end

