-- ==== Sys2Proof/Config.lean ====
section
/-! DEFINITION. The implementation parameters of rule R5, the constraints rule R6 puts on them, and the
free values of the words the spec leaves unspecified (rules R25, R36, R80, R100, R170). -/

namespace Sys2Proof

/-- The parameters every rule names (rule R5). -/
structure Config where
  /-- radix of the digits -/
  base : Nat
  /-- log2 of the longest transform -/
  logNMax : Nat
  /-- the longest transform -/
  nMax : Nat
  /-- width in bits of a word -/
  width : Nat
  /-- the prime modulus `MOD` -/
  modulus : Nat
  /-- the element of order exactly `2^23` -/
  g : Nat
  /-- the inverse of `g` -/
  gInv : Nat
  /-- number of scalar registers -/
  nReg : Nat
  /-- number of coefficient banks -/
  nBank : Nat
  /-- words in each coefficient bank -/
  depth : Nat
  deriving DecidableEq, Repr

/-- The values of rule R5 for this hardware. `modulus`, `g` and `gInv` are the spec's decision D1,
supplied there from general knowledge (PRESUMED, assumption 7). -/
def Config.unit : Config where
  base := 10
  logNMax := 23
  nMax := 8388608
  width := 32
  modulus := 998244353
  g := 15311432
  gInv := 469870224
  nReg := 16
  nBank := 2
  depth := 8388624

/-- The constraints (a) to (f) of rule R6, the definition of `NMAX` in rule R5 and the bound on
`DEPTH` of U17. -/
def Config.Meets (c : Config) : Prop :=
  c.modulus.Prime ∧
  (∃ cofactor, c.modulus - 1 = 2 ^ 23 * cofactor ∧ cofactor % 2 = 1) ∧
  c.modulus < 2 ^ c.width ∧
  orderOf (c.g : ZMod c.modulus) = 2 ^ 23 ∧
  c.gInv * c.g % c.modulus = 1 ∧
  81 * 2 ^ 22 < c.modulus ∧
  c.nMax = 2 ^ c.logNMax ∧
  2 ^ 23 + 9 ≤ c.depth

/-- `BASE` (rule R5). -/
def BASE : Nat := Config.unit.base
/-- `LOGNMAX` (rule R5). -/
def LOGNMAX : Nat := Config.unit.logNMax
/-- `MOD` (rule R5). -/
def MOD : Nat := Config.unit.modulus
/-- `G` (rule R5). -/
def G : Nat := Config.unit.g
/-- `GINV` (rule R5). -/
def GINV : Nat := Config.unit.gInv
/-- `DEPTH` (rule R5). -/
def DEPTH : Nat := Config.unit.depth

/-- FREE VALUE (assumptions 4, 5 and 6): the word that stands where the spec says "unspecified". `draw`
is the value of the model's counter at the event that leaves it unspecified, `place` tells apart the words
one event leaves unspecified. Nothing constrains it. -/
opaque Config.freeWord (draw place : Nat) : Word

/-- The open parameter `BUS` (rule R31, U15): where bit `bit` of a word travels if an implementation puts
the port on a byte-addressed bus, as byte lane and bit of that lane. No rule depends on it, and nothing in
the model uses it (assumption 15). -/
opaque Config.bus (bit : Fin 32) : Nat × Fin 8

end Sys2Proof
end

