-- ==== Sys2Proof/Machine/State.lean ====
section
/-! DEFINITION. The state of the unit (rule R10) as plain data, the host's transactions (rule R36), the
reasons a step can stop, and the state after reset (rule R25). -/

namespace Sys2Proof.Machine

/-- A host transaction (rules R32, R36). -/
inductive Transaction where
  /-- `HostRead(ha)` -/
  | read (ha : PortAddr)
  /-- `HostWrite(ha, v)` -/
  | write (ha : PortAddr) (v : Word)
  /-- `Reset` -/
  | reset
  deriving DecidableEq, Repr

/-- The codes of rule R150. -/
inductive FaultCode where
  /-- `F_ILLEGAL`, 1 -/
  | illegal
  /-- `F_SIZE`, 2 -/
  | size
  /-- `F_RANGE`, 3 -/
  | range
  /-- `F_ADDR`, 4 -/
  | addr
  deriving DecidableEq, Repr

/-- What a bank word that nothing has written since the last reset reads as. -/
inductive Fill where
  /-- the word 0: `State.reset` only (DESIGN CHOICE, assumption 3) -/
  | zero
  /-- a free value for each word, drawn at a `Reset` (rule R170, assumption 4) -/
  | unspecified (draw : Nat)
  deriving DecidableEq, Repr

/-- A coefficient bank (rule R21): the words that differ from what an unlisted index reads as, by index
in strictly rising order. The bank is word-addressed (rule R31, assumption 8). -/
structure Memory where
  fill : Fill
  cells : List (Nat × Word)
  deriving DecidableEq, Repr

/-- The state. The first six fields are rule R10's; the last three are the model's own: the counter of
the free values and the two directions of the host port (assumptions 1 and 12). -/
structure State where
  /-- `x0`–`x15` (rule R11) -/
  x : Vector Word 16
  /-- `LOGN` (rule R18) -/
  logn : BitVec 5
  /-- `LEN` (rule R19) -/
  len : Word
  /-- `FAULT` (rule R20) -/
  fault : BitVec 3
  /-- bank `A`, `CM[0]` (rule R21) -/
  bankA : Memory
  /-- bank `B`, `CM[1]` (rule R21) -/
  bankB : Memory
  /-- how many times the model has drawn free values -/
  draws : Nat
  /-- the transactions the host has issued and the unit has not performed, oldest first (rules R24, R40) -/
  pending : List Transaction
  /-- the words host reads have returned, oldest first (rule R36) -/
  replies : List Word
  deriving DecidableEq, Repr

/-- Why the machine stops. Both reasons need a state no run reaches (rules R18, R19), so neither can
stop a run; both are safe. -/
inductive Fault where
  /-- Raised by `BREV`, `BFLY`, `SCAL`, `NTT` and `PMUL` when `LOGN > 23`: the array would reach past the
  end of the bank, to words that do not exist. Rule R18: no reachable state has such a `LOGN`. Safe. -/
  | lengthBeyondBank
  /-- Raised by `TRIM` when `LEN > DEPTH`: the index `LEN − 1` is not in the bank. Rule R19: `LEN ≤ DEPTH`
  always. Safe. -/
  | countBeyondBank
  deriving DecidableEq, Repr

/-- Why the model gives an instruction no meaning. -/
inductive Refusal where
  /-- Raised by an arm of `exec` whose instruction has no meaning yet; no arm raises it now. Safe. -/
  | notModelled (mnemonic : String)
  deriving DecidableEq, Repr

/-- A bank in which nothing is written, at `State.reset`. -/
def Memory.blank : Memory where
  fill := .zero
  cells := []

/-- The state right after reset (rule R25): `FAULT`, `LOGN` and `LEN` are 0. The spec leaves `x0`–`x15`
and the banks unspecified: here they are 0 (DESIGN CHOICE, assumptions 2 and 3). No transaction is
pending. -/
def State.reset : State where
  x := Vector.replicate 16 0
  logn := 0
  len := 0
  fault := 0
  bankA := Memory.blank
  bankB := Memory.blank
  draws := 0
  pending := []
  replies := []

end Sys2Proof.Machine
end

