-- ==== Sys2Proof/Machine/Field.lean ====
section
/-! DEFINITION. The operations of the modular arithmetic unit on words (rules R70 to R78), computed on
unbounded integers and reduced at the end, and the table ROM built from them (rule R90). -/

namespace Sys2Proof.Machine

/-- The word is a field element (rule R70). -/
def inField (a : Word) : Bool := a.toNat < MOD

/-- `(a + b) mod MOD` (rule R74). -/
def addMod (a b : Word) : Word := BitVec.ofNat 32 ((a.toNat + b.toNat) % MOD)

/-- `(a − b) mod MOD`, the `mod` of rule R8 (rule R75). -/
def subMod (a b : Word) : Word := BitVec.ofInt 32 (((a.toNat : Int) - (b.toNat : Int)) % (MOD : Int))

/-- `(a × b) mod MOD` from the full product (rule R76). -/
def mulMod (a b : Word) : Word := BitVec.ofNat 32 (a.toNat * b.toNat % MOD)

/-- One bit of square-and-multiply (rule R77): square, and multiply by the base if the bit is set. -/
def powStep (base e result bit : Nat) : Nat :=
  let squared := result * result % MOD
  if e.testBit bit then squared * base % MOD else squared

/-- Square-and-multiply over the 32 bits of the exponent, from bit 31 down to bit 0 (rule R77). -/
def powNat (base e : Nat) : Nat := (List.range 32).reverse.foldl (powStep base e) 1

/-- `base^e mod MOD` (rule R77). -/
def powMod (base e : Word) : Word := BitVec.ofNat 32 (powNat base.toNat e.toNat)

/-- One butterfly on a pair of field elements (rule R104). -/
def butterfly (p q w : Word) : Word × Word :=
  let u := p
  let v := mulMod q w
  (addMod u v, subMod u v)

/-! ## The table ROM -/

/-- Entry `k` of table `t` (rule R90): `rootPow`, `invRootPow` and, for `t = 2`, `invLen`. -/
def rom (t k : Nat) : Word :=
  match t with
  | 0 => BitVec.ofNat 32 (powNat G (2 ^ (23 - k)))
  | 1 => BitVec.ofNat 32 (powNat GINV (2 ^ (23 - k)))
  | _ => BitVec.ofNat 32 (powNat (2 ^ k) (MOD - 2))

/-- A read of the ROM: the entry, if table and entry exist (rules R36, R94). -/
def romRead (t k : Nat) : Option Word := if t ≤ 2 ∧ k ≤ 23 then some (rom t k) else none

/-- The table of roots a direction uses (rule R105). -/
def rootTable : Dir → Nat
  | .fwd => 0
  | .inv => 1

end Sys2Proof.Machine
end

