-- ==== Sys2Proof/Machine/Flags.lean ====
section
/-! DEFINITION. The unit has no condition codes (rule R14). What stands in their place: the truth value
`LT` writes to a register (rule R73) and the codes of the one sticky status, `FAULT` (rules R20, R150). -/

namespace Sys2Proof.Machine

/-- The word a comparison writes: 1 for true, 0 for false (rule R73). -/
def truthWord (b : Bool) : Word := if b then 1 else 0

/-- The value a fault writes to `FAULT` (rule R150). -/
def FaultCode.code : FaultCode → BitVec 3
  | .illegal => 1
  | .size => 2
  | .range => 3
  | .addr => 4

/-- The unit is halted: a fault has been taken since reset (rules R20, R157). -/
def State.halted (s : State) : Bool := s.fault != 0

end Sys2Proof.Machine
end

