-- ==== Sys2Proof/Machine/Ops.lean ====
section
/-! DEFINITION. The operations every meaning is written with: the words of a bank, the scalar registers,
taking a fault (rule R156) and the reset that is the only way out of one (rules R158, R170). -/

namespace Sys2Proof.Machine

/-! ## The words of a bank -/

/-- What index `i` reads as when it is not listed. -/
def Memory.unlisted (m : Memory) (i : Nat) : Word :=
  match m.fill with
  | .zero => 0
  | .unspecified draw => Config.freeWord draw i

/-- The word at index `i` (rule R34). -/
def Memory.read (m : Memory) (i : Nat) : Word := (m.cells.lookup i).getD (m.unlisted i)

/-- List index `i` with word `v`, keeping the indices rising. -/
def insertCell (i : Nat) (v : Word) : List (Nat × Word) → List (Nat × Word)
  | [] => [(i, v)]
  | (j, w) :: rest =>
    if i < j then (i, v) :: (j, w) :: rest
    else if i = j then (i, v) :: rest
    else (j, w) :: insertCell i v rest

/-- Unlist index `i`. -/
def removeCell (i : Nat) (cells : List (Nat × Word)) : List (Nat × Word) :=
  cells.filter fun c => c.1 != i

/-- Write word `v` at index `i` (rule R34); a word equal to what the index reads as unlisted is not
listed. -/
def Memory.write (m : Memory) (i : Nat) (v : Word) : Memory :=
  if v = m.unlisted i then { m with cells := removeCell i m.cells }
  else { m with cells := insertCell i v m.cells }

/-- The canonical form: indices inside the bank, strictly rising, no word listed that its index would
read as unlisted. -/
abbrev Memory.wf (m : Memory) : Prop :=
  m.cells.Pairwise (fun c d => c.1 < d.1) ∧ ∀ c ∈ m.cells, c.1 < DEPTH ∧ c.2 ≠ m.unlisted c.1

/-- The words at indices `0 .. n − 1`. -/
def Memory.readArray (m : Memory) (n : Nat) : List Word := (List.range n).map m.read

/-- Write the words of a list at index `i` and the indices after it. -/
def Memory.writeArray (m : Memory) (i : Nat) : List Word → Memory
  | [] => m
  | w :: ws => (m.write i w).writeArray (i + 1) ws

/-! ## Registers and banks of a state -/

/-- `x[r]` (rule R8). -/
def State.getX (s : State) (r : Reg) : Word := s.x[r]

/-- `x[r] <- v` (rule R8). -/
def State.setX (s : State) (r : Reg) (v : Word) : State := { s with x := s.x.set r v }

/-- `CM[b]` (rule R21). -/
def State.bank (s : State) : BankId → Memory
  | .A => s.bankA
  | .B => s.bankB

/-- Replace the contents of bank `b`. -/
def State.setBank (s : State) (b : BankId) (m : Memory) : State :=
  match b with
  | .A => { s with bankA := m }
  | .B => { s with bankB := m }

/-- `CM[b][i]` (rule R8). -/
def State.word (s : State) (b : BankId) (i : Nat) : Word := (s.bank b).read i

/-- `CM[b][i] <- v` (rule R8). -/
def State.setWord (s : State) (b : BankId) (i : Nat) (v : Word) : State :=
  s.setBank b ((s.bank b).write i v)

/-- `LOGN` as a number (rule R18). -/
def State.logLength (s : State) : Nat := s.logn.toNat

/-- The current transform length `n = 2^LOGN` (rule R18). -/
def State.length (s : State) : Nat := 2 ^ s.logLength

/-- The array a vector command works on: the first `n` words of the bank (rules R21, R113). -/
def State.array (s : State) (b : BankId) : List Word := (s.bank b).readArray s.length

/-- Overwrite a bank from index 0 on (rule R46: the commands work in place). -/
def State.setArray (s : State) (b : BankId) (ws : List Word) : State :=
  s.setBank b ((s.bank b).writeArray 0 ws)

/-- `LOGN <- v` (rule R18). -/
def State.setLogn (s : State) (v : BitVec 5) : State := { s with logn := v }

/-- `LEN <- v` (rule R19). -/
def State.setLen (s : State) (v : Word) : State := { s with len := v }

/-- The model has drawn `k` more times from the free values. -/
def State.addDraws (s : State) (k : Nat) : State := { s with draws := s.draws + k }

/-- What the host has issued and the unit has not performed. -/
def State.setPending (s : State) (ts : List Transaction) : State := { s with pending := ts }

/-! ## Taking a fault, and leaving one -/

/-- `raise Fault(c)` (rule R156): the code is latched in `FAULT`, which halts the unit. Nothing is saved
and control goes nowhere. -/
def takeFault (c : FaultCode) (s : State) : State := { s with fault := c.code }

/-- `F_RANGE` in a scalar command: `x[rd]` is unspecified afterwards (rules R80, R153), a free value. -/
def rangeFaultX (rd : Reg) (s : State) : State :=
  takeFault .range ((s.setX rd (Config.freeWord s.draws rd)).addDraws 1)

/-- `F_RANGE` in a vector command: the words `CM[b][0 .. n−1]` are unspecified afterwards (rules R100,
R153), free values. -/
def rangeFaultArray (b : BankId) (s : State) : State :=
  takeFault .range ((s.setArray b ((List.range s.length).map (Config.freeWord s.draws))).addDraws 1)

/-- The `Reset` transaction (rule R170): `FAULT`, `LOGN` and `LEN` are 0, the registers and every word of
both banks are unspecified. Three draws: bank `A`, bank `B`, the registers. The host's side of the port is
not the unit's state and stays. -/
def hostReset (s : State) : State :=
  { s with
    fault := 0
    logn := 0
    len := 0
    bankA := { fill := .unspecified s.draws, cells := [] }
    bankB := { fill := .unspecified (s.draws + 1), cells := [] }
    x := Vector.ofFn fun r => Config.freeWord (s.draws + 2) r
    draws := s.draws + 3 }

end Sys2Proof.Machine
end

