-- ==== Sys2Proof/Machine/Operands.lean ====
section
/-! DEFINITION. The operand forms of the commands (rules R52, R54): three registers, raw or checked to be
field elements; the index register of `LDC` and `STC`; the array of a vector command with its range
check. -/

namespace Sys2Proof.Machine

/-- What a meaning answers. -/
abbrev Result := Host.Outcome State Fault Refusal

/-- Format `S`, raw: `x[rd] <- f(x[ra], x[rb])`, the sources read before the destination is written
(rules R71 to R73, R80). -/
def rawOp (f : Word → Word → Word) (rd ra rb : Reg) (s : State) : Result :=
  .next (s.setX rd (f (s.getX ra) (s.getX rb)))

/-- Format `S`, checked: `F_RANGE` unless the check passes, else as `rawOp` (rules R70, R80). -/
def checkedOp (ok : Word → Word → Bool) (f : Word → Word → Word) (rd ra rb : Reg) (s : State) : Result :=
  if ok (s.getX ra) (s.getX rb) then rawOp f rd ra rb s else .next (rangeFaultX rd s)

/-- Both operands are field elements: the check of `ADDM`, `SUBM` and `MULM` (rule R70). -/
def bothInField (a b : Word) : Bool := inField a && inField b

/-- The base alone is a field element: the check of `POWM` (rules R70, R77). -/
def baseInField (base _e : Word) : Bool := inField base

/-- The effective index of `LDC` and `STC`: `x[ra]`, all 32 bits, if it is in the bank (rules R131,
R132). -/
def indexOperand (ra : Reg) (s : State) : Option Nat :=
  if (s.getX ra).toNat < DEPTH then some (s.getX ra).toNat else none

/-- `RangeCheck(b)`: every word of the array is a field element (rule R100). -/
def rangeCheck (s : State) (b : BankId) : Bool := (s.array b).all inField

/-- A vector command on bank `b` in place: if its range check passes the array is replaced by `f` of it,
else `F_RANGE` (rules R100, R113). In a state with `LOGN > 23`, which no run reaches, the array does not
exist (assumption 9). -/
def vectorOp (b : BankId) (ok : Bool) (f : List Word → List Word) (s : State) : Result :=
  if s.logLength ≤ LOGNMAX then
    if ok then .next (s.setArray b (f (s.array b))) else .next (rangeFaultArray b s)
  else .fault .lengthBeyondBank

end Sys2Proof.Machine
end

