-- ==== Sys2Proof/Machine/Arithmetic.lean ====
section
/-! DEFINITION. The commands of the modular arithmetic unit (rules R70 to R80). -/

namespace Sys2Proof.Machine

/-- `ADD rd, ra, rb` (rule R71): raw addition modulo `2^32`. -/
def execAdd (rd ra rb : Reg) (s : State) : Result := rawOp (fun a b => a + b) rd ra rb s

/-- `SUB rd, ra, rb` (rule R72): raw subtraction modulo `2^32`. -/
def execSub (rd ra rb : Reg) (s : State) : Result := rawOp (fun a b => a - b) rd ra rb s

/-- `LT rd, ra, rb` (rule R73): unsigned comparison, 1 or 0. -/
def execLt (rd ra rb : Reg) (s : State) : Result :=
  rawOp (fun a b => truthWord (a.toNat < b.toNat)) rd ra rb s

/-- `ADDM rd, ra, rb` (rule R74). -/
def execAddm (rd ra rb : Reg) (s : State) : Result := checkedOp bothInField addMod rd ra rb s

/-- `SUBM rd, ra, rb` (rule R75). -/
def execSubm (rd ra rb : Reg) (s : State) : Result := checkedOp bothInField subMod rd ra rb s

/-- `MULM rd, ra, rb` (rule R76). -/
def execMulm (rd ra rb : Reg) (s : State) : Result := checkedOp bothInField mulMod rd ra rb s

/-- `POWM rd, ra, rb` (rule R77): only the base is checked. -/
def execPowm (rd ra rb : Reg) (s : State) : Result := checkedOp baseInField powMod rd ra rb s

end Sys2Proof.Machine
end

