-- ==== Sys2Proof/Machine/Carry.lean ====
section
/-! DEFINITION. The carry-propagation pipeline: `NORM` (rule R120) and `TRIM` (rule R122). -/

namespace Sys2Proof.Machine

/-- The loop of rule R120 from some index `i` on. `room` is `DEPTH − i`, `words` the nominal words not
yet read (none once `i ≥ n`), and the answer the digits stored from index `i` on, or none if the loop
runs past the end of the bank. The carry is an unbounded integer. -/
def normLoop : (room : Nat) → (words : List Word) → (carry : Nat) → Option (List Word)
  | _, [], 0 => some []
  | 0, _, _ => none
  | room + 1, words, carry =>
    let value := (words.head?.map BitVec.toNat).getD 0 + carry
    (normLoop room words.tail (value / BASE)).map (BitVec.ofNat 32 (value % BASE) :: ·)

/-- `NORM bd` (rule R120): the digits replace the words from index 0 on and `LEN` counts them. The
`F_ADDR` line cannot be reached while `LOGN ≤ 23` (rule R121). -/
def execNorm (bd : BankId) (s : State) : Result :=
  match normLoop DEPTH (s.array bd) 0 with
  | some digits => .next ((s.setArray bd digits).setLen (BitVec.ofNat 32 digits.length))
  | none => .next (takeFault .addr s)

/-- The loop of rule R122: drop the highest slot while there is more than one and it holds 0. -/
def trimCount (word : Nat → Word) : Nat → Nat
  | 0 => 0
  | 1 => 1
  | n + 2 => if word (n + 1) = 0 then trimCount word (n + 1) else n + 2

/-- `TRIM bd` (rule R122): only `LEN` is written. In a state with `LEN > DEPTH`, which no run reaches, the
highest slot does not exist (assumption 10). -/
def execTrim (bd : BankId) (s : State) : Result :=
  if s.len.toNat ≤ DEPTH then .next (s.setLen (BitVec.ofNat 32 (trimCount (s.word bd) s.len.toNat)))
  else .fault .countBeyondBank

end Sys2Proof.Machine
end

