-- ==== Sys2Proof/Machine/Moves.lean ====
section
/-! DEFINITION. The moves: `LDT` (rule R94), `LDC` (rule R131), `STC` (rule R132). -/

namespace Sys2Proof.Machine

/-- `LDT rd, t, k` (rule R94): `F_ADDR` for table 3 or an entry above 23. -/
def execLdt (rd : Reg) (t k : Nat) (s : State) : Result :=
  match romRead t k with
  | some v => .next (s.setX rd v)
  | none => .next (takeFault .addr s)

/-- `LDC rd, bd, (ra)` (rule R131): `F_ADDR` for an index outside the bank. -/
def execLdc (rd : Reg) (bd : BankId) (ra : Reg) (s : State) : Result :=
  match indexOperand ra s with
  | some i => .next (s.setX rd (s.word bd i))
  | none => .next (takeFault .addr s)

/-- `STC rd, bd, (ra)` (rule R132): `F_ADDR` for an index outside the bank. -/
def execStc (rd : Reg) (bd : BankId) (ra : Reg) (s : State) : Result :=
  match indexOperand ra s with
  | some i => .next (s.setWord bd i (s.getX rd))
  | none => .next (takeFault .addr s)

end Sys2Proof.Machine
end

