-- ==== Sys2Proof/Machine/Transform.lean ====
section
/-! DEFINITION. The transform engine (rules R100 to R113) and the pointwise product (rule R130): first
the operations on an array of words, loop for loop as the rules write them, then the commands. -/

namespace Sys2Proof.Machine

/-! ## Bit reversal -/

/-- `rev(i, L)`: the `L`-bit form of `i` read backwards (rule R101). -/
def rev : (L i : Nat) → Nat
  | 0, _ => 0
  | L + 1, i => i % 2 * 2 ^ L + rev L (i / 2)

/-- Exchange the words at two indices. -/
def swapWords (a : List Word) (i r : Nat) : List Word := (a.set i (a.getD r 0)).set r (a.getD i 0)

/-- One turn of the loop of rule R103: swap index `i` with its partner if `i` is the lower of the two. -/
def brevTurn (L : Nat) (a : List Word) (i : Nat) : List Word :=
  if i < rev L i then swapWords a i (rev L i) else a

/-- The bit-reversal permutation of an array of `2^L` words (rule R103). -/
def brevArray (L : Nat) (a : List Word) : List Word := (List.range (2 ^ L)).foldl (brevTurn L) a

/-! ## Butterfly stages -/

/-- One turn of the innermost loop of rule R105: the butterfly of the words at `i + j` and
`i + j + half` with the running twiddle, which then advances. -/
def bflyTurn (half : Nat) (wlen : Word) (i : Nat) (st : List Word × Word) (j : Nat) : List Word × Word :=
  let r := butterfly (st.1.getD (i + j) 0) (st.1.getD (i + j + half) 0) st.2
  ((st.1.set (i + j) r.1).set (i + j + half) r.2, mulMod st.2 wlen)

/-- The block that starts at `i`: the twiddle starts at 1 (rule R105). -/
def bflyBlock (half : Nat) (wlen : Word) (a : List Word) (i : Nat) : List Word :=
  ((List.range half).foldl (bflyTurn half wlen i) (a, 1)).1

/-- Stage `k` over an array of `2^L` words: `len = 2^k`, blocks at `0, len, 2·len, …` (rule R105). -/
def bflyStage (dir : Dir) (L : Nat) (a : List Word) (k : Nat) : List Word :=
  (List.range (2 ^ L / 2 ^ k)).foldl
    (fun a block => bflyBlock (2 ^ k / 2) (rom (rootTable dir) k) a (block * 2 ^ k)) a

/-- All stages, `k` from 1 to `L` (rule R105). -/
def bflyArray (dir : Dir) (L : Nat) (a : List Word) : List Word :=
  (List.range L).foldl (fun a k => bflyStage dir L a (k + 1)) a

/-! ## Scaling, the whole transform, the pointwise product -/

/-- Every element times `invLen[L]` (rule R106). -/
def scaleArray (L : Nat) (a : List Word) : List Word := a.map fun v => mulMod v (rom 2 L)

/-- The whole transform: permutation, stages, and scaling when inverse (rule R107). -/
def nttArray (dir : Dir) (L : Nat) (a : List Word) : List Word :=
  match dir with
  | .fwd => bflyArray .fwd L (brevArray L a)
  | .inv => scaleArray L (bflyArray .inv L (brevArray L a))

/-- Lane by lane products (rule R130). -/
def pmulArray (a b : List Word) : List Word := List.zipWith mulMod a b

/-! ## The commands -/

/-- `SETN logn` (rule R102): `F_SIZE` above 23. -/
def execSetn (logn : Nat) (s : State) : Result :=
  if logn > LOGNMAX then .next (takeFault .size s) else .next (s.setLogn (BitVec.ofNat 5 logn))

/-- `BREV bd` (rule R103): no range check. -/
def execBrev (bd : BankId) (s : State) : Result := vectorOp bd true (brevArray s.logLength) s

/-- `BFLY bd, dir` (rule R105). -/
def execBfly (bd : BankId) (dir : Dir) (s : State) : Result :=
  vectorOp bd (rangeCheck s bd) (bflyArray dir s.logLength) s

/-- `SCAL bd` (rule R106). -/
def execScal (bd : BankId) (s : State) : Result :=
  vectorOp bd (rangeCheck s bd) (scaleArray s.logLength) s

/-- `NTT bd, dir` (rule R107). -/
def execNtt (bd : BankId) (dir : Dir) (s : State) : Result :=
  vectorOp bd (rangeCheck s bd) (nttArray dir s.logLength) s

/-- `PMUL bd, bs` (rule R130): both banks are checked, bank `bd` receives the products. -/
def execPmul (bd bs : BankId) (s : State) : Result :=
  vectorOp bd (rangeCheck s bd && rangeCheck s bs) (fun a => pmulArray a (s.array bs)) s

end Sys2Proof.Machine
end

