-- ==== Sys2Proof/Machine/Dispatch.lean ====
section
/-! DEFINITION. One arm per command of rule R53. -/

namespace Sys2Proof.Machine

def exec (i : Instr) (s : State) : Host.Outcome State Fault Refusal :=
  match i with
  | .add rd ra rb => Sys2Proof.Machine.execAdd rd ra rb s
  | .sub rd ra rb => Sys2Proof.Machine.execSub rd ra rb s
  | .lt rd ra rb => Sys2Proof.Machine.execLt rd ra rb s
  | .addm rd ra rb => Sys2Proof.Machine.execAddm rd ra rb s
  | .subm rd ra rb => Sys2Proof.Machine.execSubm rd ra rb s
  | .mulm rd ra rb => Sys2Proof.Machine.execMulm rd ra rb s
  | .powm rd ra rb => Sys2Proof.Machine.execPowm rd ra rb s
  | .ldt rd t k => Sys2Proof.Machine.execLdt rd t k s
  | .ldc rd bd ra => Sys2Proof.Machine.execLdc rd bd ra s
  | .stc rd bd ra => Sys2Proof.Machine.execStc rd bd ra s
  | .setn logn => Sys2Proof.Machine.execSetn logn s
  | .brev bd => Sys2Proof.Machine.execBrev bd s
  | .bfly bd dir => Sys2Proof.Machine.execBfly bd dir s
  | .scal bd => Sys2Proof.Machine.execScal bd s
  | .ntt bd dir => Sys2Proof.Machine.execNtt bd dir s
  | .pmul bd bs => Sys2Proof.Machine.execPmul bd bs s
  | .norm bd => Sys2Proof.Machine.execNorm bd s
  | .trim bd => Sys2Proof.Machine.execTrim bd s

end Sys2Proof.Machine
end

