-- ==== Sys2Proof/Machine/Port.lean ====
section
/-! DEFINITION. The host port: the address map (rule R32), the legal transactions (rule R36), the command
port (rule R17) and what a halted unit does with them (rule R157). -/

namespace Sys2Proof.Machine

/-- What a word address of the port names (rule R32). -/
inductive Place where
  /-- word `i` of a bank -/
  | bank (b : BankId) (i : Nat)
  /-- entry `k` of table `t` of the ROM -/
  | rom (t k : Nat)
  /-- a scalar register -/
  | x (r : Reg)
  | cmd
  | fault
  | logn
  | len
  /-- nothing is mapped there -/
  | nothing
  deriving DecidableEq, Repr

/-- A place of a bank region: the index must be below `DEPTH`. -/
def bankPlace (b : BankId) (i : Nat) : Place := if i < DEPTH then .bank b i else .nothing

/-- The register with number `q` (rule R15). -/
def registerPlace (q : Nat) : Place :=
  if h : q < 16 then .x ⟨q, h⟩
  else if q = 0x10 then .cmd
  else if q = 0x11 then .fault
  else if q = 0x12 then .logn
  else if q = 0x13 then .len
  else .nothing

/-- The flat address map of rule R32. -/
def placeOf (ha : PortAddr) : Place :=
  match (ha.extractLsb' 24 2).toNat with
  | 0 => bankPlace .A (ha.extractLsb' 0 24).toNat
  | 1 => bankPlace .B (ha.extractLsb' 0 24).toNat
  | 2 =>
    let t := (ha.extractLsb' 5 2).toNat
    let k := (ha.extractLsb' 0 5).toNat
    if ha.extractLsb' 7 17 = 0 ∧ t ≤ 2 ∧ k ≤ 23 then .rom t k else .nothing
  | _ => if ha.extractLsb' 5 19 = 0 then registerPlace (ha.extractLsb' 0 5).toNat else .nothing

/-- The word address of `CMD` (rule R32). -/
def cmdAddr : PortAddr := 0x3000010

/-- The word a legal read returns; none where reading is illegal (rules R36, R37). -/
def readPlace (s : State) : Place → Option Word
  | .bank b i => some (s.word b i)
  | .rom t k => some (rom t k)
  | .x r => some (s.getX r)
  | .fault => some (s.fault.zeroExtend 32)
  | .logn => some (s.logn.zeroExtend 32)
  | .len => some s.len
  | .cmd => none
  | .nothing => none

/-- A word goes back to the host. -/
def reply (v : Word) (s : State) : State := { s with replies := s.replies ++ [v] }

/-- An illegal access takes `F_ADDR`; a halted unit discards it without changing `FAULT` (rules R36,
R157). -/
def illegalAccess (s : State) : State := if s.halted then s else takeFault .addr s

/-- `HostRead(ha)` (rule R36): legal reads have no side effect and stay legal while halted; the word an
illegal read returns is unspecified, a free value (U7, assumption 6). -/
def hostRead (ha : PortAddr) (s : State) : State :=
  match readPlace s (placeOf ha) with
  | some v => reply v s
  | none => illegalAccess ((reply (Config.freeWord s.draws 0) s).addDraws 1)

/-- A word written to `CMD`: decoded and executed, or `F_ILLEGAL` (rules R17, R57, R62). -/
def runCommand (c : Word) (s : State) : Result :=
  match decode c with
  | .ok i => exec i s
  | .error _ => .next (takeFault .illegal s)

/-- `HostWrite(ha, v)` (rule R36): discarded while halted (rule R157). -/
def hostWrite (ha : PortAddr) (v : Word) (s : State) : Result :=
  if s.halted then .next s
  else
    match placeOf ha with
    | .bank b i => .next (s.setWord b i v)
    | .x r => .next (s.setX r v)
    | .len => if v.toNat ≤ DEPTH then .next (s.setLen v) else .next (takeFault .addr s)
    | .cmd => runCommand v s
    | .rom _ _ => .next (takeFault .addr s)
    | .fault => .next (takeFault .addr s)
    | .logn => .next (takeFault .addr s)
    | .nothing => .next (takeFault .addr s)

/-- Perform one transaction completely (rule R40). -/
def perform (t : Transaction) (s : State) : Result :=
  match t with
  | .read ha => .next (hostRead ha s)
  | .write ha v => hostWrite ha v s
  | .reset => .next (hostReset s)

/-- The unit performs the oldest transaction the host has issued; with none it waits (rules R40, R163,
R170). -/
def serve (s : State) : Result :=
  match s.pending with
  | [] => .next s
  | t :: rest => perform t (s.setPending rest)

/-- The next transaction becomes a write of command word `w` to `CMD`, ahead of what is pending. -/
def issueCommand (w : Word) (s : State) : State :=
  s.setPending (.write cmdAddr w :: s.pending)

end Sys2Proof.Machine
end

