-- ==== Sys2Proof/Machine/Step.lean ====
section
/-! DEFINITION. One step of the machine, and where it takes its next command from. -/

namespace Sys2Proof.Machine

/-- One step is one host transaction, performed completely (rules R24, R40). -/
def step (s : State) : Host.Outcome State Fault Refusal := serve s

/-- The state whose next transaction is the write of an opcode-table word to `CMD` (rule R17); the bits
above `nbits` are zero. -/
def State.withFetchWord (s : State) (nbits w : Nat) : State :=
  issueCommand (BitVec.ofNat 32 (w % 2 ^ nbits)) s

end Sys2Proof.Machine
end

