-- ==== Sys2Proof/Machine/Pipeline.lean ====
section
/-! DEFINITION. The host's side of a multiplication (rules R133 to R141): duties of the host, not of the
unit, written down so that the exactness claim (rule R142) can be stated. A string is a list of
characters, position 0 first. -/

namespace Sys2Proof.Machine

/-- The digit a character stands for; none for a character the host must refuse (rule R134). -/
def digitOfChar (c : Char) : Option Word :=
  if 48 ≤ c.toNat ∧ c.toNat ≤ 57 then some (BitVec.ofNat 32 (c.toNat - 48)) else none

/-- Parse (rule R137): index `j` holds the character at position `L − 1 − j` minus `'0'`. The host
refuses an empty string and one with a character that is no digit (rule R134). -/
def parse (text : List Char) : Option (List Word) :=
  if text.isEmpty then none else text.reverse.mapM digitOfChar

/-- The least `logn` with `2^logn ≥ lenA + lenB`; none if it is above 23 (rule R135). -/
def chooseLogn (lenA lenB : Nat) : Option Nat := (List.range 24).find? fun k => lenA + lenB ≤ 2 ^ k

/-- The flat word address of index `i` of a bank (rule R32). -/
def bankAddr (b : BankId) (i : Nat) : PortAddr :=
  match b with
  | .A => BitVec.ofNat 26 i
  | .B => BitVec.ofNat 26 (0x1000000 + i)

/-- Load a digit array into a bank and zero-pad it to length `n` (rule R137). -/
def loadBank (b : BankId) (digits : List Word) (n : Nat) : List Transaction :=
  (List.range n).map fun j => .write (bankAddr b j) (digits.getD j 0)

/-- Write a command to `CMD` (rule R17). -/
def issue (i : Instr) : Transaction := .write cmdAddr (encode i)

/-- The command sequence of rule R138. -/
def pipelineCommands : List Instr :=
  [.ntt .A .fwd, .ntt .B .fwd, .pmul .A .B, .ntt .A .inv, .norm .A, .trim .A]

/-- The transactions of rules R136 to R138 for two decimal strings; none if the host must refuse them
(rules R134, R135). -/
def multiplyTransactions (textA textB : List Char) : Option (List Transaction) := do
  let a ← parse textA
  let b ← parse textB
  let logn ← chooseLogn a.length b.length
  some (issue (.setn logn) :: (loadBank .A a (2 ^ logn) ++ loadBank .B b (2 ^ logn) ++
    pipelineCommands.map issue))

/-- The digits of the result: the first `LEN` words of bank `A` (rule R139). -/
def resultDigits (s : State) : List Word := s.bankA.readArray s.len.toNat

/-- The transactions of rule R139 for a result of `len` digits: `FAULT`, `LEN`, then the digits. -/
def readBack (len : Nat) : List Transaction :=
  .read 0x3000011 :: .read 0x3000013 :: (List.range len).map fun i => .read (bankAddr .A i)

/-- Render (rule R141): the digits from the highest index to index 0, as characters. -/
def render (digits : List Word) : List Char := digits.reverse.map fun d => Char.ofNat (48 + d.toNat)

end Sys2Proof.Machine
end

