-- ==== Sys2Proof/Safety.lean ====
section
/-! DEFINITION. The terms claims are stated in: the invariant of the state, runs, and what an
instruction leaves unchanged. -/

namespace Sys2Proof.Machine

/-- The invariant: `LOGN` is at most 23 (rule R18), `LEN` at most `DEPTH` (rule R19), `FAULT` one of the
codes 0 to 4 (rule R20), and both banks are in canonical form. -/
abbrev State.Inv (s : State) : Prop :=
  s.logLength ≤ 23 ∧ s.len.toNat ≤ DEPTH ∧ s.fault.toNat ≤ 4 ∧ s.bankA.wf ∧ s.bankB.wf

/-- `k` steps; none if one of them stops. -/
def steps : Nat → State → Option State
  | 0, s => some s
  | k + 1, s =>
    match step s with
    | .next t => steps k t
    | .fault _ => none
    | .refused _ => none

/-- A sequence of commands executed one after the other; none if one of them stops. -/
def execAll : List Instr → State → Option State
  | [], s => some s
  | i :: is, s =>
    match exec i s with
    | .next t => execAll is t
    | .fault _ => none
    | .refused _ => none

/-! ## Frames -/

/-- Every scalar register is unchanged. -/
def SameRegs (s t : State) : Prop := ∀ r, t.getX r = s.getX r

/-- Every scalar register but `x[rd]` is unchanged. -/
def SameRegsBut (rd : Reg) (s t : State) : Prop := ∀ r, r ≠ rd → t.getX r = s.getX r

/-- Every word of a bank from index `n` on is unchanged. -/
def SameBankFrom (b : BankId) (n : Nat) (s t : State) : Prop := ∀ i, n ≤ i → t.word b i = s.word b i

/-- Every word of a bank is unchanged. -/
def SameBank (b : BankId) (s t : State) : Prop := SameBankFrom b 0 s t

/-- Every word of both banks is unchanged. -/
def SameBanks (s t : State) : Prop := ∀ b, SameBank b s t

/-- Only bank `bd` may have changed, and only below index `n`. -/
def SameBanksButArray (bd : BankId) (n : Nat) (s t : State) : Prop :=
  SameBankFrom bd n s t ∧ ∀ b, b ≠ bd → SameBank b s t

/-- `LOGN` and `LEN` are unchanged. -/
def SameControl (s t : State) : Prop := t.logn = s.logn ∧ t.len = s.len

/-- The host's side of the port is unchanged. -/
def SamePort (s t : State) : Prop := t.pending = s.pending ∧ t.replies = s.replies

/-- Everything the unit holds but `FAULT` is unchanged. -/
def SameButFault (s t : State) : Prop := SameRegs s t ∧ SameBanks s t ∧ SameControl s t

/-- Nothing has changed but `x[rd]`. -/
def OnlyRegister (rd : Reg) (s t : State) : Prop :=
  SameRegsBut rd s t ∧ SameBanks s t ∧ SameControl s t ∧ t.fault = s.fault ∧ SamePort s t ∧ t.draws = s.draws

/-- Nothing has changed but the words of bank `bd` below index `n`. -/
def OnlyArray (bd : BankId) (n : Nat) (s t : State) : Prop :=
  SameRegs s t ∧ SameBanksButArray bd n s t ∧ SameControl s t ∧ t.fault = s.fault ∧ SamePort s t ∧
  t.draws = s.draws

/-- A fault with code `c` was taken and nothing else has changed. -/
def OnlyFault (c : Nat) (s t : State) : Prop :=
  t.fault.toNat = c ∧ SameButFault s t ∧ SamePort s t ∧ t.draws = s.draws

/-- `F_RANGE` was taken in a scalar command: `x[rd]` is unspecified and nothing else has changed but the
model's draw counter. -/
def OnlyRangeFault (rd : Reg) (s t : State) : Prop :=
  t.fault = 3 ∧ SameRegsBut rd s t ∧ SameBanks s t ∧ SameControl s t ∧ SamePort s t

/-! ## Addresses -/

/-- Nothing is mapped at a word address: past the end of a bank, between or past the tables of the ROM, or
past the registers (rules R32, R36). -/
def Unmapped (ha : PortAddr) : Prop :=
  (DEPTH ≤ ha.toNat ∧ ha.toNat < 0x1000000) ∨
  (0x1000000 + DEPTH ≤ ha.toNat ∧ ha.toNat < 0x2000000) ∨
  (0x2000000 ≤ ha.toNat ∧ ha.toNat < 0x3000000 ∧
    ∀ t k, t ≤ 2 → k ≤ 23 → ha.toNat ≠ 0x2000000 + 32 * t + k) ∨
  0x3000014 ≤ ha.toNat

/-! ## Values -/

/-- Every word of the array a vector command works on is a field element (rule R26). -/
abbrev FieldArray (s : State) (b : BankId) : Prop := ∀ i, i < s.length → (s.word b i).toNat < MOD

/-- The number the first `len` words of a bank denote (rule R33). -/
def valueOf (s : State) (b : BankId) (len : Nat) : Nat :=
  ((List.range len).map fun i => (s.word b i).toNat * 10 ^ i).sum

end Sys2Proof.Machine
end

