-- ==== Sys2Proof/Certificates/Slice0/Obligations.lean ====
section
/-! DEFINITION. The statements for the provers. Each docstring names the rule of the spec it formalises;
a statement that rests on a choice of the model names the assumption. -/

open Sys2Proof Sys2Proof.Machine

/-! ## Encoding -/

/-- The fourteen example words of rule R60, written out in that rule, decode to the commands beside them. -/
def Obligations.ExampleWordsDecode : Prop :=
  decode 0x04312000 = .ok (.addm 3 1 2) ∧ decode 0x070FE000 = .ok (.powm 0 15 14) ∧
  decode 0x10100003 = .ok (.ldt 1 0 3) ∧ decode 0x10100043 = .ok (.ldt 1 2 3) ∧
  decode 0x11250100 = .ok (.ldc 2 .B 5) ∧ decode 0x12250000 = .ok (.stc 2 .A 5) ∧
  decode 0x20000005 = .ok (.setn 5) ∧ decode 0x21000100 = .ok (.brev .B) ∧
  decode 0x22000001 = .ok (.bfly .A .inv) ∧ decode 0x24000100 = .ok (.ntt .B .fwd) ∧
  decode 0x25000200 = .ok (.pmul .A .B) ∧ decode 0x25000100 = .ok (.pmul .B .A) ∧
  decode 0x30000000 = .ok (.norm .A) ∧ decode 0x31000100 = .ok (.trim .B)

/-- Decoding the encoding of any well-formed command gives it back, with every operand at every value
its field admits (rules R51 to R54). -/
def Obligations.DecodeInvertsEncode : Prop :=
  ∀ i : Instr, i.WellFormed → decode (encode i) = .ok i

/-- A word that decodes is the encoding of a well-formed command: no bit of it is ignored (rule R56). -/
def Obligations.EncodeInvertsDecode : Prop :=
  ∀ (c : Word) (i : Instr), decode c = .ok i → i.WellFormed ∧ encode i = c

/-- The opcode map (rule R53), row by row: a word spells the row's command exactly when
`c & mask = match`; a word that matches no row is refused (rules R56, R57, R62). -/
def Obligations.OpcodeMapDecides : Prop :=
  let rows : List (Op × Word × Word) :=
    [(.add, 0x01000000, 0xFF000FFF), (.sub, 0x02000000, 0xFF000FFF), (.lt, 0x03000000, 0xFF000FFF),
     (.addm, 0x04000000, 0xFF000FFF), (.subm, 0x05000000, 0xFF000FFF), (.mulm, 0x06000000, 0xFF000FFF),
     (.powm, 0x07000000, 0xFF000FFF), (.ldt, 0x10000000, 0xFF0FFF80), (.ldc, 0x11000000, 0xFF00FEFF),
     (.stc, 0x12000000, 0xFF00FEFF)] ++
    [(.setn, 0x20000000, 0xFFFFFFE0), (.brev, 0x21000000, 0xFFFFFEFF), (.bfly, 0x22000000, 0xFFFFFEFE),
     (.scal, 0x23000000, 0xFFFFFEFF), (.ntt, 0x24000000, 0xFFFFFEFE), (.pmul, 0x25000000, 0xFFFFFCFF),
     (.norm, 0x30000000, 0xFFFFFEFF), (.trim, 0x31000000, 0xFFFFFEFF)]
  (∀ row ∈ rows, ∀ c : Word, (∃ i, decode c = .ok i ∧ i.op = row.1) ↔ c &&& row.2.2 = row.2.1) ∧
  ∀ c : Word, (∀ row ∈ rows, c &&& row.2.2 ≠ row.2.1) → ∃ e, decode c = .error e

/-! ## Steps -/

/-- A step runs the decoded command: a write of a word to `CMD` of a unit that is not halted is exactly
`exec` of the command the word decodes to, in the state in which the transaction is no longer pending
(rule R17); in particular every well-formed command runs when its encoding is written. -/
def Obligations.StepExecutesTheCommandWritten : Prop :=
  (∀ (s : State) (c : Word) (i : Instr) (rest : List Transaction), s.fault = 0 →
    s.pending = .write cmdAddr c :: rest → decode c = .ok i → step s = exec i (s.setPending rest)) ∧
  ∀ (s : State) (i : Instr) (rest : List Transaction), s.fault = 0 → i.WellFormed →
    s.pending = .write cmdAddr (encode i) :: rest → step s = exec i (s.setPending rest)

/-- Rule R57: a word that matches no row of the opcode map takes `F_ILLEGAL` (code 1) and changes
nothing else. -/
def Obligations.IllegalWordFaults : Prop :=
  ∀ (s : State) (c : Word) (rest : List Transaction), s.fault = 0 → s.pending = .write cmdAddr c :: rest →
    (∀ o : Op, c &&& o.mask ≠ o.pattern) →
    ∃ t, step s = .next t ∧ OnlyFault 1 (s.setPending rest) t

/-- With no transaction pending the unit waits (rule R170; that waiting is a step that changes nothing
is the model's choice, assumption 1). -/
def Obligations.IdleUnitWaits : Prop :=
  ∀ s : State, s.pending = [] → step s = .next s

/-! ## The modular arithmetic unit -/

/-- Rules R71 and R72: `ADD` and `SUB` write the sum and the difference modulo `2^32`, for all words
and all registers, a destination equal to a source included, and change nothing else. -/
def Obligations.RawAdditionAndSubtraction : Prop :=
  ∀ (s : State) (rd ra rb : Reg),
    (∃ t, exec (.add rd ra rb) s = .next t ∧
      (t.getX rd).toNat = ((s.getX ra).toNat + (s.getX rb).toNat) % 2 ^ 32 ∧ OnlyRegister rd s t) ∧
    (∃ t, exec (.sub rd ra rb) s = .next t ∧
      ((t.getX rd).toNat : Int) = (((s.getX ra).toNat : Int) - ((s.getX rb).toNat : Int)) % 2 ^ 32 ∧
      OnlyRegister rd s t)

/-- Rule R73: `LT` writes 1 if `x[ra] < x[rb]` as unsigned integers, else 0, and changes nothing else. -/
def Obligations.UnsignedComparison : Prop :=
  ∀ (s : State) (rd ra rb : Reg), ∃ t, exec (.lt rd ra rb) s = .next t ∧
    ((s.getX ra).toNat < (s.getX rb).toNat → t.getX rd = 1) ∧
    ((s.getX rb).toNat ≤ (s.getX ra).toNat → t.getX rd = 0) ∧ OnlyRegister rd s t

/-- Rules R74, R75 and R76 where both operands are field elements: the sum, difference and product
modulo `MOD`, computed as if on unbounded integers, and nothing else changes. -/
def Obligations.ModularArithmetic : Prop :=
  ∀ (s : State) (rd ra rb : Reg), (s.getX ra).toNat < MOD → (s.getX rb).toNat < MOD →
    (∃ t, exec (.addm rd ra rb) s = .next t ∧
      (t.getX rd).toNat = ((s.getX ra).toNat + (s.getX rb).toNat) % MOD ∧ OnlyRegister rd s t) ∧
    (∃ t, exec (.subm rd ra rb) s = .next t ∧
      ((t.getX rd).toNat : Int) = (((s.getX ra).toNat : Int) - ((s.getX rb).toNat : Int)) % (MOD : Int) ∧
      OnlyRegister rd s t) ∧
    (∃ t, exec (.mulm rd ra rb) s = .next t ∧
      (t.getX rd).toNat = (s.getX ra).toNat * (s.getX rb).toNat % MOD ∧ OnlyRegister rd s t)

/-- Rule R77 where the base is a field element: `POWM` writes `base^e mod MOD` for every 32-bit
exponent, exponent 0 included, and changes nothing else. -/
def Obligations.ModularExponentiation : Prop :=
  ∀ (s : State) (rd ra rb : Reg), (s.getX ra).toNat < MOD →
    ∃ t, exec (.powm rd ra rb) s = .next t ∧
      (t.getX rd).toNat = (s.getX ra).toNat ^ (s.getX rb).toNat % MOD ∧ OnlyRegister rd s t

/-- Rule R70. `ADDM`, `SUBM` and `MULM` check both sources, `POWM` its base only: where the checked
operands are field elements no fault is taken and the result is a field element; where one is not,
`F_RANGE` (code 3) is taken, `x[rd]` is unspecified (the statement says nothing of it) and nothing else
changes but the model's draw counter. `ADD`, `SUB` and `LT` have no precondition. -/
def Obligations.RangePrecondition : Prop :=
  ∀ (s : State) (rd ra rb : Reg),
    (∀ i, i = .addm rd ra rb ∨ i = .subm rd ra rb ∨ i = .mulm rd ra rb →
      ((s.getX ra).toNat < MOD → (s.getX rb).toNat < MOD →
        ∃ t, exec i s = .next t ∧ t.fault = s.fault ∧ (t.getX rd).toNat < MOD) ∧
      (MOD ≤ (s.getX ra).toNat ∨ MOD ≤ (s.getX rb).toNat →
        ∃ t, exec i s = .next t ∧ OnlyRangeFault rd s t)) ∧
    ((s.getX ra).toNat < MOD →
      ∃ t, exec (.powm rd ra rb) s = .next t ∧ t.fault = s.fault ∧ (t.getX rd).toNat < MOD) ∧
    (MOD ≤ (s.getX ra).toNat → ∃ t, exec (.powm rd ra rb) s = .next t ∧ OnlyRangeFault rd s t) ∧
    ∀ i, i = .add rd ra rb ∨ i = .sub rd ra rb ∨ i = .lt rd ra rb → ∃ t, exec i s = .next t ∧ t.fault = s.fault

/-- Rule R79: with `MOD − 2` in `x[rb]`, `POWM` writes the inverse of a non-zero field element, and 0
for 0. -/
def Obligations.InverseByFermat : Prop :=
  ∀ (s : State) (rd ra rb : Reg), (s.getX ra).toNat < MOD → (s.getX rb).toNat = MOD - 2 →
    ∃ t, exec (.powm rd ra rb) s = .next t ∧
      (s.getX ra ≠ 0 → (t.getX rd).toNat * (s.getX ra).toNat % MOD = 1) ∧ (s.getX ra = 0 → t.getX rd = 0)

/-! ## The table ROM -/

/-- Rule R94 with the contents of rule R90: `LDT` writes the entry of the table, and takes `F_ADDR`
(code 4) with no other change for table 3 or an entry above 23. -/
def Obligations.TableLoad : Prop :=
  ∀ (s : State) (rd : Reg) (t k : Nat),
    (t ≤ 2 → k ≤ 23 → ∃ u, exec (.ldt rd t k) s = .next u ∧ OnlyRegister rd s u ∧
      (t = 0 → (u.getX rd).toNat = G ^ 2 ^ (23 - k) % MOD) ∧
      (t = 1 → (u.getX rd).toNat = GINV ^ 2 ^ (23 - k) % MOD) ∧
      (t = 2 → (u.getX rd).toNat = (2 ^ k) ^ (MOD - 2) % MOD)) ∧
    (t = 3 ∨ 23 < k → ∃ u, exec (.ldt rd t k) s = .next u ∧ OnlyFault 4 s u)

/-- The three tables hold the numbers rule R91 lists. Those numbers are the spec's own inference, marked
there `[derived: computed from rule R90]`, for the parameters of decision D1 (assumption 7). -/
def Obligations.TableContents : Prop :=
  ((List.range 24).map fun k => (rom 0 k).toNat) =
    [1, 998244352, 911660635, 372528824, 929031873, 452798380, 922799308, 781712469, 476477967, 166035806,
      258648936, 584193783] ++
    [63912897, 350007156, 666702199, 968855178, 629671588, 24514907, 996173970, 363395222, 565042129,
      733596141, 267099868, 15311432] ∧
  ((List.range 24).map fun k => (rom 1 k).toNat) =
    [1, 998244352, 86583718, 509520358, 337190230, 87557064, 609441965, 135236158, 304459705, 685443576,
      381598368, 335559352] ++
    [129292727, 358024708, 814576206, 708402881, 283043518, 3707709, 121392023, 704923114, 950391366,
      428961804, 382752275, 469870224] ∧
  ((List.range 24).map fun k => (rom 2 k).toNat) =
    [1, 499122177, 748683265, 873463809, 935854081, 967049217, 982646785, 990445569, 994344961, 996294657,
      997269505, 997756929] ++
    [998000641, 998122497, 998183425, 998213889, 998229121, 998236737, 998240545, 998242449, 998243401,
      998243877, 998244115, 998244234]

/-- The laws of the contents that rule R93 lists, marked there as the spec's own inference
`[derived: from rule R90 and the order of G]`, and what `LDT` loads in any state. -/
def Obligations.TableLaws : Prop :=
  (∀ k, k ≤ 23 → (rom 0 k).toNat ^ 2 ^ k % MOD = 1 ∧ (rom 0 k).toNat * (rom 1 k).toNat % MOD = 1 ∧
    (rom 2 k).toNat * 2 ^ k % MOD = 1) ∧
  (∀ k, 1 ≤ k → k ≤ 23 → (rom 0 k).toNat ^ 2 ^ (k - 1) % MOD = MOD - 1 ∧
    (rom 0 k).toNat ^ 2 % MOD = (rom 0 (k - 1)).toNat ∧ (rom 1 k).toNat ^ 2 % MOD = (rom 1 (k - 1)).toNat ∧
    (rom 2 k).toNat = (rom 2 (k - 1)).toNat * (rom 2 1).toNat % MOD) ∧
  (rom 0 0 = 1 ∧ rom 1 0 = 1 ∧ rom 2 0 = 1 ∧ (rom 0 1).toNat = MOD - 1 ∧ (rom 1 1).toNat = MOD - 1 ∧
    (rom 0 23).toNat = G ∧ (rom 1 23).toNat = GINV ∧ (rom 2 1).toNat = (MOD + 1) / 2) ∧
  ∀ (s : State) (rd : Reg) (t k : Nat), t ≤ 2 → k ≤ 23 →
    ∃ u, exec (.ldt rd t k) s = .next u ∧ u.getX rd = rom t k ∧ 1 ≤ (u.getX rd).toNat ∧
      (u.getX rd).toNat < MOD

/-- The values of rule R5 meet the constraints (a) to (f) of rule R6, and `NMAX = 2^LOGNMAX` and the bound
of U17 on `DEPTH`. That they do is the spec's own inference (`[derived: checked by computation …]`); the
numbers are those of decision D1 (assumption 7). -/
def Obligations.ParametersMeetTheConstraints : Prop := Config.unit.Meets

/-! ## Moves -/

/-- Rule R131: `LDC` moves the word at index `x[ra]` to `x[rd]` and changes nothing else; an index
outside the bank takes `F_ADDR` (code 4) with no other change. -/
def Obligations.LoadCoefficient : Prop :=
  ∀ (s : State) (rd ra : Reg) (bd : BankId),
    ((s.getX ra).toNat < DEPTH → ∃ t, exec (.ldc rd bd ra) s = .next t ∧
      t.getX rd = s.word bd (s.getX ra).toNat ∧ OnlyRegister rd s t) ∧
    (DEPTH ≤ (s.getX ra).toNat → ∃ t, exec (.ldc rd bd ra) s = .next t ∧ OnlyFault 4 s t)

/-- Rule R132: `STC` stores `x[rd]` at index `x[ra]` of the bank and changes nothing else: no register,
no other word of either bank; an index outside the bank takes `F_ADDR` (code 4) with no other change. -/
def Obligations.StoreCoefficient : Prop :=
  ∀ (s : State) (rd ra : Reg) (bd : BankId),
    ((s.getX ra).toNat < DEPTH → ∃ t, exec (.stc rd bd ra) s = .next t ∧
      t.word bd (s.getX ra).toNat = s.getX rd ∧
      (∀ b i, (b, i) ≠ (bd, (s.getX ra).toNat) → t.word b i = s.word b i) ∧
      SameRegs s t ∧ SameControl s t ∧ t.fault = s.fault ∧ SamePort s t ∧ t.draws = s.draws) ∧
    (DEPTH ≤ (s.getX ra).toNat → ∃ t, exec (.stc rd bd ra) s = .next t ∧ OnlyFault 4 s t)

/-- A coefficient stored and loaded back is the word stored, and every other word of both banks is as
before (rules R131, R132, R41). -/
def Obligations.LoadAfterStore : Prop :=
  ∀ (s : State) (rs rt ra : Reg) (bd : BankId), (s.getX ra).toNat < DEPTH →
    ∃ t, execAll [.stc rs bd ra, .ldc rt bd ra] s = some t ∧ t.getX rt = s.getX rs ∧
      ∀ b i, (b, i) ≠ (bd, (s.getX ra).toNat) → t.word b i = s.word b i

/-! ## The transform engine -/

/-- Rule R102: `SETN` sets `LOGN` and changes nothing else; a length above `2^23` takes `F_SIZE`
(code 2) with no other change. -/
def Obligations.SetLength : Prop :=
  ∀ (s : State) (logn : Nat),
    (logn ≤ 23 → ∃ t, exec (.setn logn) s = .next t ∧ t.logLength = logn ∧ SameRegs s t ∧ SameBanks s t ∧
      t.len = s.len ∧ t.fault = s.fault ∧ SamePort s t ∧ t.draws = s.draws) ∧
    (23 < logn → ∃ t, exec (.setn logn) s = .next t ∧ OnlyFault 2 s t)

/-- The effect of `BREV` that rule R103 states without its loop (marked there `[derived: rev is an
involution …]`), with the sum of rule R101: after `BREV` the word at index `i` is the old word at the index whose
`LOGN`-bit form is that of `i` read backwards, for any words; nothing else changes. -/
def Obligations.BitReversalPermutes : Prop :=
  ∀ (s : State) (bd : BankId), s.logLength ≤ 23 →
    ∃ t, exec (.brev bd) s = .next t ∧ OnlyArray bd s.length s t ∧
      ∀ i, i < s.length → t.word bd i =
        s.word bd (∑ b ∈ Finset.range s.logLength, (i.testBit b).toNat * 2 ^ (s.logLength - 1 - b))

/-- Applying `BREV` twice restores the whole state (rule R103, corner cases). -/
def Obligations.BitReversalTwiceRestores : Prop :=
  ∀ (s : State) (bd : BankId), s.Inv → execAll [.brev bd, .brev bd] s = some s

/-- What the stages of rule R105 compute: `BFLY` leaves the transform of the bit-reversed rearrangement
of the array (rule R105, corner cases; the closed form by the argument of rule R108). Nothing else
changes. -/
def Obligations.ButterflyStages : Prop :=
  ∀ (s : State) (bd : BankId) (dir : Dir), s.logLength ≤ 23 → FieldArray s bd →
    ∃ t, exec (.bfly bd dir) s = .next t ∧ OnlyArray bd s.length s t ∧
      ∀ m, m < s.length → (t.word bd m).toNat =
        (∑ j ∈ Finset.range s.length, (s.word bd (rev s.logLength j)).toNat *
          (rom (rootTable dir) s.logLength).toNat ^ (m * j)) % MOD

/-- Rules R104 and R105 for one stage, `LOGN = 1`: the two words become the sum and the difference of
their butterfly with twiddle 1, in both directions. -/
def Obligations.SingleButterfly : Prop :=
  ∀ (s : State) (bd : BankId) (dir : Dir), s.logLength = 1 → FieldArray s bd →
    ∃ t, exec (.bfly bd dir) s = .next t ∧ OnlyArray bd 2 s t ∧
      (t.word bd 0).toNat = ((s.word bd 0).toNat + (s.word bd 1).toNat) % MOD ∧
      ((t.word bd 1).toNat : Int) = (((s.word bd 0).toNat : Int) - ((s.word bd 1).toNat : Int)) % (MOD : Int)

/-- Rule R106: `SCAL` multiplies every element by `invLen[LOGN]` modulo `MOD` and changes nothing else. -/
def Obligations.InverseScaling : Prop :=
  ∀ (s : State) (bd : BankId), s.logLength ≤ 23 → FieldArray s bd →
    ∃ t, exec (.scal bd) s = .next t ∧ OnlyArray bd s.length s t ∧
      ∀ i, i < s.length → (t.word bd i).toNat = (s.word bd i).toNat * (rom 2 s.logLength).toNat % MOD

/-- Rule R107: when no fault occurs `NTT bd, dir` ends in the same state as `BREV bd`; `BFLY bd, dir`;
and, when inverse, `SCAL bd`. -/
def Obligations.TransformIsItsSteps : Prop :=
  ∀ (s : State) (bd : BankId), s.Inv → FieldArray s bd →
    (∃ t, exec (.ntt bd .fwd) s = .next t ∧ execAll [.brev bd, .bfly bd .fwd] s = some t) ∧
    (∃ t, exec (.ntt bd .inv) s = .next t ∧ execAll [.brev bd, .bfly bd .inv, .scal bd] s = some t)

/-- The closed form of rule R108, marked there as the spec's own inference (`[derived: from rules R103,
R105, R106 …]`): the forward transform leaves `Σ x[t] ω^(m·t) mod MOD` at index `m`, the inverse
`invLen[L] · Σ x[t] ω'^(m·t) mod MOD`; nothing else changes. -/
def Obligations.TransformIsTheDft : Prop :=
  ∀ (s : State) (bd : BankId), s.logLength ≤ 23 → FieldArray s bd →
    (∃ t, exec (.ntt bd .fwd) s = .next t ∧ OnlyArray bd s.length s t ∧
      ∀ m, m < s.length → (t.word bd m).toNat =
        (∑ j ∈ Finset.range s.length, (s.word bd j).toNat * (rom 0 s.logLength).toNat ^ (m * j)) % MOD) ∧
    (∃ t, exec (.ntt bd .inv) s = .next t ∧ OnlyArray bd s.length s t ∧
      ∀ m, m < s.length → (t.word bd m).toNat =
        (rom 2 s.logLength).toNat *
          (∑ j ∈ Finset.range s.length, (s.word bd j).toNat * (rom 1 s.logLength).toNat ^ (m * j)) % MOD)

/-- The round trip of rule R109, in both orders (marked there `[derived: from rule R108 …]`): for every
`LOGN` and every array of field elements the forward transform followed by the
inverse restores the array exactly (the whole state, the banks being in canonical form), and so does the
sequence in the other order. -/
def Obligations.TransformRoundTrip : Prop :=
  ∀ (s : State) (bd : BankId), s.Inv → FieldArray s bd →
    execAll [.ntt bd .fwd, .ntt bd .inv] s = some s ∧ execAll [.ntt bd .inv, .ntt bd .fwd] s = some s

/-- Rule R110: the sequence `NTT A, FWD`; `NTT B, FWD`; `PMUL A, B`; `NTT A, INV` leaves the cyclic
convolution in bank `A` and the forward transform of `b` in bank `B`; where the occupied lengths fit in
`n` it is the ordinary polynomial product modulo `MOD`. -/
def Obligations.ConvolutionTheorem : Prop :=
  ∀ s : State, s.logLength ≤ 23 → FieldArray s .A → FieldArray s .B →
    ∃ t, execAll [.ntt .A .fwd, .ntt .B .fwd, .pmul .A .B, .ntt .A .inv] s = some t ∧
      t.fault = s.fault ∧
      (∀ m, m < s.length → (t.word .A m).toNat =
        (∑ j ∈ Finset.range s.length,
          (s.word .A j).toNat * (s.word .B ((m + s.length - j) % s.length)).toNat) % MOD) ∧
      (∀ m, m < s.length → (t.word .B m).toNat =
        (∑ j ∈ Finset.range s.length, (s.word .B j).toNat * (rom 0 s.logLength).toNat ^ (m * j)) % MOD) ∧
      ∀ lenA lenB, lenA + lenB ≤ s.length →
        (∀ j, lenA ≤ j → j < s.length → s.word .A j = 0) →
        (∀ j, lenB ≤ j → j < s.length → s.word .B j = 0) →
        ∀ m, m < s.length → (t.word .A m).toNat =
          (∑ j ∈ Finset.range (m + 1), (s.word .A j).toNat * (s.word .B (m - j)).toNat) % MOD

/-- Rule R112: at `LOGN = 0` every command of the engine is defined and leaves the state as it was, the
range check of `BFLY`, `SCAL` and `NTT` still applying: where the one word is no field element they take
`F_RANGE` (code 3). -/
def Obligations.LengthOneIsTheIdentity : Prop :=
  ∀ (s : State) (bd : BankId) (dir : Dir), s.Inv → s.logn = 0 →
    exec (.brev bd) s = .next s ∧
    ((s.word bd 0).toNat < MOD → exec (.bfly bd dir) s = .next s ∧ exec (.scal bd) s = .next s ∧
      exec (.ntt bd dir) s = .next s) ∧
    (MOD ≤ (s.word bd 0).toNat → ∀ i, i = .bfly bd dir ∨ i = .scal bd ∨ i = .ntt bd dir →
      ∃ t, exec i s = .next t ∧ t.fault = 3)

/-- Rule R130 where every element of both banks is a field element: `PMUL` replaces each element of
`bd` by its product with the element of `bs`, its square when the banks are the same, and changes
nothing else. -/
def Obligations.PointwiseProduct : Prop :=
  ∀ (s : State) (bd bs : BankId), s.logLength ≤ 23 → FieldArray s bd → FieldArray s bs →
    ∃ t, exec (.pmul bd bs) s = .next t ∧ OnlyArray bd s.length s t ∧
      ∀ i, i < s.length → (t.word bd i).toNat = (s.word bd i).toNat * (s.word bs i).toNat % MOD

/-- Rule R100: a word of an array `BFLY`, `SCAL`, `NTT` or `PMUL` will read that is no field element takes
`F_RANGE` (code 3); the words `CM[bd][0 .. n−1]` are unspecified (the statement says nothing of them) and
nothing else changes but the model's draw counter. With field elements none of them takes a fault, and
`BREV` takes none on any words. -/
def Obligations.VectorRangeFault : Prop :=
  ∀ (s : State) (bd bs : BankId) (dir : Dir) (i : Instr), s.logLength ≤ 23 →
    ((i = .bfly bd dir ∨ i = .scal bd ∨ i = .ntt bd dir) ∧ ¬ FieldArray s bd ∨
        i = .pmul bd bs ∧ (¬ FieldArray s bd ∨ ¬ FieldArray s bs) →
      ∃ t, exec i s = .next t ∧ t.fault = 3 ∧ SameRegs s t ∧ SameBanksButArray bd s.length s t ∧
        SameControl s t ∧ SamePort s t) ∧
    ((i = .bfly bd dir ∨ i = .scal bd ∨ i = .ntt bd dir) ∧ FieldArray s bd ∨
        i = .pmul bd bs ∧ FieldArray s bd ∧ FieldArray s bs ∨ i = .brev bd →
      ∃ t, exec i s = .next t ∧ t.fault = s.fault)

/-- The invariant of rule R26 (marked there `[derived: from 42_ntt_engine.md rules R103, R105 …]`): `BREV`,
`BFLY`, `SCAL`, `NTT` and `PMUL` that take no fault leave field elements where
there were field elements. -/
def Obligations.FieldElementsStayFieldElements : Prop :=
  ∀ (s t : State) (bd bs : BankId) (dir : Dir) (i : Instr), s.fault = 0 →
    (i = .brev bd ∨ i = .bfly bd dir ∨ i = .scal bd ∨ i = .ntt bd dir ∨ i = .pmul bd bs) →
    FieldArray s bd → exec i s = .next t → t.fault = 0 → FieldArray t bd

/-! ## The carry pipeline -/

/-- What the loop of rule R120 leaves, by the bounds of rule R121 (marked there `[derived: from rule R120 by
induction on i]`): `NORM` on any words leaves `n` to `n + 9` decimal digits and their number in
`LEN`; the number the array denotes is preserved; a grown slot is never a leading zero; words from `LEN`
on, the other bank, the registers, `LOGN` and `FAULT` are unchanged. -/
def Obligations.NormalizeKeepsTheValue : Prop :=
  ∀ (s : State) (bd : BankId), s.logLength ≤ 23 →
    ∃ t, exec (.norm bd) s = .next t ∧
      s.length ≤ t.len.toNat ∧ t.len.toNat ≤ s.length + 9 ∧
      (∀ i, i < t.len.toNat → (t.word bd i).toNat ≤ 9) ∧
      valueOf t bd t.len.toNat = valueOf s bd s.length ∧
      (t.len.toNat = s.length ∨ t.word bd (t.len.toNat - 1) ≠ 0) ∧
      SameBanksButArray bd t.len.toNat s t ∧ SameRegs s t ∧ t.logn = s.logn ∧ t.fault = s.fault ∧
      SamePort s t ∧ t.draws = s.draws

/-- Rule R122: `TRIM` lowers `LEN` past the high slots that hold 0, down to one slot at the least; at
`LEN` 0 or 1 it changes nothing; nothing but `LEN` is written. -/
def Obligations.TrimDropsLeadingZeros : Prop :=
  ∀ (s : State) (bd : BankId), s.len.toNat ≤ DEPTH →
    ∃ t, exec (.trim bd) s = .next t ∧
      t.len.toNat ≤ s.len.toNat ∧
      (∀ i, t.len.toNat ≤ i → i < s.len.toNat → s.word bd i = 0) ∧
      (s.len.toNat ≤ 1 → t.len = s.len) ∧
      (1 ≤ s.len.toNat → 1 ≤ t.len.toNat ∧ (t.len.toNat = 1 ∨ s.word bd (t.len.toNat - 1) ≠ 0)) ∧
      SameBanks s t ∧ SameRegs s t ∧ t.logn = s.logn ∧ t.fault = s.fault ∧ SamePort s t ∧ t.draws = s.draws

/-- Rule R123: after `NORM bd` and `TRIM bd` the first `LEN` words are decimal digits with no leading
zero but a single 0, and denote the number the array denoted before. -/
def Obligations.NormalizeAndTrimIsCanonical : Prop :=
  ∀ (s : State) (bd : BankId), s.logLength ≤ 23 →
    ∃ t, execAll [.norm bd, .trim bd] s = some t ∧
      1 ≤ t.len.toNat ∧ (∀ i, i < t.len.toNat → (t.word bd i).toNat ≤ 9) ∧
      (t.len.toNat = 1 ∨ t.word bd (t.len.toNat - 1) ≠ 0) ∧
      valueOf t bd t.len.toNat = valueOf s bd s.length ∧ t.fault = s.fault

/-- Where the model stops, only in states no run reaches (assumptions 9 and 10): a vector command with
`LOGN > 23`, and `TRIM` with `LEN > DEPTH`; and where `NORM` reaches the line of rule R120 that rule
R121 shows unreachable it takes `F_ADDR` with no other change (assumption 11). -/
def Obligations.BeyondTheBank : Prop :=
  ∀ (s : State) (bd bs : BankId) (dir : Dir),
    (23 < s.logLength →
      exec (.brev bd) s = .fault .lengthBeyondBank ∧ exec (.bfly bd dir) s = .fault .lengthBeyondBank ∧
      exec (.scal bd) s = .fault .lengthBeyondBank ∧ exec (.ntt bd dir) s = .fault .lengthBeyondBank ∧
      exec (.pmul bd bs) s = .fault .lengthBeyondBank ∧
      ∃ t, exec (.norm bd) s = .next t ∧ OnlyFault 4 s t) ∧
    (DEPTH < s.len.toNat → exec (.trim bd) s = .fault .countBeyondBank)

/-! ## Who writes what -/

/-- Over all commands: only `SETN` changes `LOGN` (rule R18), only `NORM` and `TRIM` change `LEN` (rule
R19); a scalar register that changes is the `rd` of one of the scalar commands or of `LDT` or `LDC` (rule
R12); a bank with a word that changes is the bank the command writes: the `bd` of `STC`, `BREV`, `BFLY`,
`SCAL`, `NTT`, `PMUL` or `NORM` (rules R30 and R46; `TRIM` and `LDC` only read). -/
def Obligations.OnlyTheNamedCommandsWrite : Prop :=
  ∀ (i : Instr) (s t : State), exec i s = .next t →
    (t.logn ≠ s.logn → ∃ l, i = .setn l) ∧
    (t.len ≠ s.len → ∃ b, i = .norm b ∨ i = .trim b) ∧
    (∀ rd, t.getX rd ≠ s.getX rd →
      (∃ ra rb, i = .add rd ra rb ∨ i = .sub rd ra rb ∨ i = .lt rd ra rb ∨ i = .addm rd ra rb ∨
        i = .subm rd ra rb ∨ i = .mulm rd ra rb ∨ i = .powm rd ra rb) ∨
      (∃ x k, i = .ldt rd x k) ∨ ∃ b ra, i = .ldc rd b ra) ∧
    (∀ b j, t.word b j ≠ s.word b j →
      (∃ rd ra, i = .stc rd b ra) ∨ i = .brev b ∨ (∃ d, i = .bfly b d ∨ i = .ntt b d) ∨ i = .scal b ∨
        (∃ c, i = .pmul b c) ∨ i = .norm b)

/-- Every state of the banks, the control registers and `FAULT` stays as the spec says: from any state
that meets the invariant (rules R18, R19, R20; the banks' canonical form is the model's own) a step never
stops and answers a state that meets it. -/
def Obligations.StepKeepsTheInvariant : Prop :=
  ∀ s : State, s.Inv → ∃ t, step s = .next t ∧ t.Inv

/-- The invariant holds at reset. -/
def Obligations.ResetMeetsTheInvariant : Prop := State.reset.Inv

/-! ## Faults and the halted state -/

/-- Rule R157: while `FAULT ≠ 0` every transaction but `Reset` leaves all of the unit's state as it is,
`FAULT` included; a legal read still answers the word it names. -/
def Obligations.HaltedUnitDiscards : Prop :=
  ∀ (s : State) (tr : Transaction) (rest : List Transaction), s.fault ≠ 0 → s.pending = tr :: rest →
    tr ≠ .reset →
    ∃ t, step s = .next t ∧ t.fault = s.fault ∧ SameButFault s t ∧ t.pending = rest ∧
      (∀ ha v, tr = .write ha v → t.replies = s.replies ∧ t.draws = s.draws) ∧
      ∀ ha v, tr = .read ha → readPlace s (placeOf ha) = some v → t.replies = s.replies ++ [v]

/-- Rule R158: along any run in which the host issues no `Reset` a fault stays, and with it every
register, both banks, `LOGN` and `LEN`. -/
def Obligations.OnlyResetEndsTheHalt : Prop :=
  ∀ (k : Nat) (s t : State), s.fault ≠ 0 → Transaction.reset ∉ s.pending → steps k s = some t →
    t.fault = s.fault ∧ SameButFault s t

/-! ## Reset -/

/-- Rule R170: `Reset` leaves `FAULT`, `LOGN` and `LEN` 0, from any state, halted or not. Registers and
banks are unspecified: the statement says nothing of them. That the transactions still pending and the
words already returned stay is the model's choice, not the spec's (DESIGN CHOICE, assumption 14). -/
def Obligations.ResetTransaction : Prop :=
  ∀ (s : State) (rest : List Transaction), s.pending = .reset :: rest →
    ∃ t, step s = .next t ∧ t.fault = 0 ∧ t.logn = 0 ∧ t.len = 0 ∧ t.pending = rest ∧ t.replies = s.replies

/-- Rule R25: the three values the spec gives for the state after reset. -/
def Obligations.ResetValues : Prop :=
  State.reset.fault = 0 ∧ State.reset.logn = 0 ∧ State.reset.len = 0

/-! ## The host port -/

/-- Rules R32, R36 and R37: every legal read, at its address, answers the word it names, extended with
zeros, and changes nothing of the unit's state; halted or not. -/
def Obligations.LegalReads : Prop :=
  ∀ (s : State) (ha : PortAddr) (v : Word) (rest : List Transaction), s.pending = .read ha :: rest →
    ((∃ i, i < DEPTH ∧ ha.toNat = i ∧ v = s.word .A i) ∨
      (∃ i, i < DEPTH ∧ ha.toNat = 0x1000000 + i ∧ v = s.word .B i) ∨
      (∃ t k, t ≤ 2 ∧ k ≤ 23 ∧ ha.toNat = 0x2000000 + 32 * t + k ∧ v = rom t k) ∨
      (∃ r : Reg, ha.toNat = 0x3000000 + r.val ∧ v = s.getX r) ∨
      (ha.toNat = 0x3000011 ∧ v.toNat = s.fault.toNat) ∨
      (ha.toNat = 0x3000012 ∧ v.toNat = s.logn.toNat) ∨
      (ha.toNat = 0x3000013 ∧ v = s.len)) →
    ∃ t, step s = .next t ∧ t.replies = s.replies ++ [v] ∧ SameButFault s t ∧ t.fault = s.fault ∧
      t.pending = rest ∧ t.draws = s.draws

/-- Rule R36: the legal writes to a bank, to a scalar register and to `LEN`, of a unit that is not
halted, write the word and change nothing else. -/
def Obligations.LegalWrites : Prop :=
  ∀ (s : State) (ha : PortAddr) (v : Word) (rest : List Transaction), s.fault = 0 →
    s.pending = .write ha v :: rest →
    (∀ b i, i < DEPTH → ha.toNat = (if b = .A then 0 else 0x1000000) + i →
      ∃ t, step s = .next t ∧ t.word b i = v ∧ (∀ c j, (c, j) ≠ (b, i) → t.word c j = s.word c j) ∧
        SameRegs s t ∧ SameControl s t ∧ t.fault = 0 ∧ t.pending = rest ∧ t.replies = s.replies) ∧
    (∀ r : Reg, ha.toNat = 0x3000000 + r.val →
      ∃ t, step s = .next t ∧ t.getX r = v ∧ SameRegsBut r s t ∧ SameBanks s t ∧ SameControl s t ∧
        t.fault = 0 ∧ t.pending = rest ∧ t.replies = s.replies) ∧
    (ha.toNat = 0x3000013 → v.toNat ≤ DEPTH →
      ∃ t, step s = .next t ∧ t.len = v ∧ SameRegs s t ∧ SameBanks s t ∧ t.logn = s.logn ∧
        t.fault = 0 ∧ t.pending = rest ∧ t.replies = s.replies)

/-- Rules R36 and R154: an illegal access of a unit that is not halted takes `F_ADDR` (code 4) and
changes nothing else: a read of `CMD`, a write to the ROM, to `FAULT` or to `LOGN`, a write of
`LEN > DEPTH`, and any access to an address that is not mapped. -/
def Obligations.IllegalAccessFaults : Prop :=
  ∀ (s : State) (ha : PortAddr) (rest : List Transaction), s.fault = 0 →
    (s.pending = .read ha :: rest → Unmapped ha ∨ ha.toNat = 0x3000010 →
      ∃ t, step s = .next t ∧ t.fault = 4 ∧ SameButFault s t ∧ t.pending = rest) ∧
    ∀ v, s.pending = .write ha v :: rest →
      Unmapped ha ∨ (0x2000000 ≤ ha.toNat ∧ ha.toNat < 0x3000000) ∨ ha.toNat = 0x3000011 ∨
        ha.toNat = 0x3000012 ∨ (ha.toNat = 0x3000013 ∧ DEPTH < v.toNat) →
      ∃ t, step s = .next t ∧ OnlyFault 4 (s.setPending rest) t

/-- Rule R39: every write other than to `CMD` is idempotent (the same write performed again leaves the
state of one write), and a legal read has no side effect: nothing changes but that the word goes back to
the host. -/
def Obligations.WritesAreIdempotent : Prop :=
  (∀ (s t : State) (ha : PortAddr) (v : Word), ha ≠ cmdAddr → hostWrite ha v s = .next t →
    hostWrite ha v t = .next t) ∧
  ∀ (s : State) (ha : PortAddr) (v : Word), readPlace s (placeOf ha) = some v →
    hostRead ha s = { s with replies := s.replies ++ [v] }

/-- A host read of a bank word answers the word last written there (rule R41): whatever the host
writes to one word of a bank, the next read of that word returns it. -/
def Obligations.ReadReturnsTheLastWrite : Prop :=
  ∀ (s : State) (ha : PortAddr) (v : Word) (rest : List Transaction), s.fault = 0 →
    (ha.toNat < DEPTH ∨ (0x1000000 ≤ ha.toNat ∧ ha.toNat < 0x1000000 + DEPTH)) →
    s.pending = .write ha v :: .read ha :: rest →
    ∃ t, steps 2 s = some t ∧ t.replies = s.replies ++ [v] ∧ t.fault = 0 ∧ t.pending = rest

/-! ## The multiplication pipeline -/

/-- Rule R135: the host takes the least `logn` with `2^logn ≥ lenA + lenB`, and stops where it is
above 23. -/
def Obligations.HostChoosesTheLeastLength : Prop :=
  ∀ lenA lenB : Nat,
    (∀ k, chooseLogn lenA lenB = some k ↔
      k ≤ 23 ∧ lenA + lenB ≤ 2 ^ k ∧ ∀ j, j < k → 2 ^ j < lenA + lenB) ∧
    (chooseLogn lenA lenB = none ↔ 2 ^ 23 < lenA + lenB)

/-- Rule R142: for all numbers whose decimal strings together have at most `2^23` characters, a host
that follows rules R134 to R141 from any state with `FAULT = 0` ends with `FAULT = 0` and the rendered
string is the decimal string of the product. -/
def Obligations.MultiplicationIsExact : Prop :=
  ∀ (s : State) (a b : Nat), s.fault = 0 →
    (Nat.toDigits 10 a).length + (Nat.toDigits 10 b).length ≤ 2 ^ 23 →
    ∃ ts t, multiplyTransactions (Nat.toDigits 10 a) (Nat.toDigits 10 b) = some ts ∧
      steps ts.length (s.setPending ts) = some t ∧ t.fault = 0 ∧ t.pending = [] ∧
      render (resultDigits t) = Nat.toDigits 10 (a * b)

/-- The length of the result, rule R140 (marked there `[derived: a product of an a-digit …]`): after that
run `LEN` is `lenA + lenB` or one less when neither operand is zero, and 1
when one is. -/
def Obligations.ProductLength : Prop :=
  ∀ (s : State) (a b : Nat), s.fault = 0 →
    (Nat.toDigits 10 a).length + (Nat.toDigits 10 b).length ≤ 2 ^ 23 →
    ∃ ts t, multiplyTransactions (Nat.toDigits 10 a) (Nat.toDigits 10 b) = some ts ∧
      steps ts.length (s.setPending ts) = some t ∧
      (a ≠ 0 → b ≠ 0 →
        t.len.toNat = (Nat.toDigits 10 a).length + (Nat.toDigits 10 b).length ∨
        t.len.toNat + 1 = (Nat.toDigits 10 a).length + (Nat.toDigits 10 b).length) ∧
      (a = 0 ∨ b = 0 → t.len.toNat = 1)

/-- Rule R139: the read-back answers `FAULT`, `LEN` and then the digits of the result, and changes
nothing of the unit's state. -/
def Obligations.ReadBackAnswersTheDigits : Prop :=
  ∀ s : State, s.fault = 0 → s.len.toNat ≤ DEPTH → s.pending = readBack s.len.toNat →
    ∃ t, steps (2 + s.len.toNat) s = some t ∧ t.replies = s.replies ++ (0 :: s.len :: resultDigits s) ∧
      SameButFault s t ∧ t.fault = 0 ∧ t.pending = []
end

