-- ==== Sys2Proof/Laws/Field.lean ====
section
/-! SUPPORT. The laws of the modular operations: what each computes, as a number below `MOD` and as an
element of `ZMod MOD`. -/

namespace Sys2Proof.Machine

theorem MOD_eq : MOD = 998244353 := rfl
theorem MOD_pos : 0 < MOD := by decide
theorem one_lt_MOD : 1 < MOD := by decide
theorem MOD_lt : MOD < 2 ^ 32 := by decide
theorem DEPTH_eq : DEPTH = 8388624 := rfl
theorem LOGNMAX_eq : LOGNMAX = 23 := rfl
theorem BASE_eq : BASE = 10 := rfl

/-- A number below `MOD` is held by a word. -/
theorem toNat_ofNat_of_lt_MOD {n : Nat} (h : n < MOD) : (BitVec.ofNat 32 n).toNat = n := by
  have := MOD_lt
  rw [BitVec.toNat_ofNat]
  exact Nat.mod_eq_of_lt (lt_trans h this)

theorem toNat_ofNat_mod_MOD (n : Nat) : (BitVec.ofNat 32 (n % MOD)).toNat = n % MOD :=
  toNat_ofNat_of_lt_MOD (Nat.mod_lt _ MOD_pos)

theorem inField_iff (a : Word) : inField a = true ↔ a.toNat < MOD := by simp [inField]

/-- The element of the field a word stands for. -/
def fieldElem (a : Word) : ZMod MOD := (a.toNat : ZMod MOD)

theorem fieldElem_ofNat_mod (n : Nat) : fieldElem (BitVec.ofNat 32 (n % MOD)) = (n : ZMod MOD) := by
  rw [fieldElem, toNat_ofNat_mod_MOD, ZMod.natCast_mod]

/-- Field elements that stand for the same element are the same word. -/
theorem eq_of_fieldElem_eq {a b : Word} (ha : a.toNat < MOD) (hb : b.toNat < MOD)
    (h : fieldElem a = fieldElem b) : a = b := by
  apply BitVec.eq_of_toNat_eq
  have := (ZMod.natCast_eq_natCast_iff' _ _ _).1 h
  rwa [Nat.mod_eq_of_lt ha, Nat.mod_eq_of_lt hb] at this

@[simp] theorem fieldElem_zero : fieldElem 0#32 = 0 := by simp [fieldElem]
@[simp] theorem fieldElem_one : fieldElem 1#32 = 1 := by simp [fieldElem]

/-! ## Addition, subtraction, multiplication -/

theorem addMod_toNat (a b : Word) : (addMod a b).toNat = (a.toNat + b.toNat) % MOD :=
  toNat_ofNat_mod_MOD _

theorem mulMod_toNat (a b : Word) : (mulMod a b).toNat = a.toNat * b.toNat % MOD :=
  toNat_ofNat_mod_MOD _

/-- The difference is `a − b` or `a − b + MOD` (rule R75). -/
theorem subMod_toNat (a b : Word) :
    (subMod a b).toNat = (((a.toNat : Int) - (b.toNat : Int)) % (MOD : Int)).toNat := by
  have hpos : (0 : Int) < (MOD : Int) := by exact_mod_cast MOD_pos
  have h0 := Int.emod_nonneg ((a.toNat : Int) - (b.toNat : Int)) (ne_of_gt hpos)
  have h1 := Int.emod_lt_of_pos ((a.toNat : Int) - (b.toNat : Int)) hpos
  have hM : (MOD : Int) < 2 ^ 32 := by exact_mod_cast MOD_lt
  rw [subMod, BitVec.toNat_ofInt]
  congr 1
  exact Int.emod_eq_of_lt h0 (lt_trans h1 hM)

theorem addMod_lt (a b : Word) : (addMod a b).toNat < MOD := by
  rw [addMod_toNat]; exact Nat.mod_lt _ MOD_pos

theorem mulMod_lt (a b : Word) : (mulMod a b).toNat < MOD := by
  rw [mulMod_toNat]; exact Nat.mod_lt _ MOD_pos

theorem subMod_lt (a b : Word) : (subMod a b).toNat < MOD := by
  have hpos : (0 : Int) < (MOD : Int) := by exact_mod_cast MOD_pos
  have h0 := Int.emod_nonneg ((a.toNat : Int) - (b.toNat : Int)) (ne_of_gt hpos)
  have h1 := Int.emod_lt_of_pos ((a.toNat : Int) - (b.toNat : Int)) hpos
  rw [subMod_toNat]
  omega

theorem fieldElem_addMod (a b : Word) : fieldElem (addMod a b) = fieldElem a + fieldElem b := by
  rw [addMod, fieldElem_ofNat_mod]; simp [fieldElem]

theorem fieldElem_mulMod (a b : Word) : fieldElem (mulMod a b) = fieldElem a * fieldElem b := by
  rw [mulMod, fieldElem_ofNat_mod]; simp [fieldElem]

theorem fieldElem_subMod (a b : Word) : fieldElem (subMod a b) = fieldElem a - fieldElem b := by
  have hpos : (0 : Int) < (MOD : Int) := by exact_mod_cast MOD_pos
  have h0 := Int.emod_nonneg ((a.toNat : Int) - (b.toNat : Int)) (ne_of_gt hpos)
  have key : ((subMod a b).toNat : Int) = ((a.toNat : Int) - (b.toNat : Int)) % (MOD : Int) := by
    rw [subMod_toNat, Int.toNat_of_nonneg h0]
  have cast : ((subMod a b).toNat : ZMod MOD) = (((subMod a b).toNat : Int) : ZMod MOD) := by simp
  rw [fieldElem, cast, key, ZMod.intCast_mod]
  simp [fieldElem]

/-- Multiplying a field element by 1 leaves it. -/
theorem mulMod_one {a : Word} (h : a.toNat < MOD) : mulMod a 1 = a := by
  apply BitVec.eq_of_toNat_eq
  rw [mulMod_toNat]
  simpa using Nat.mod_eq_of_lt h

/-! ## Exponentiation -/

theorem powStep_lt (base e r bit : Nat) : powStep base e r bit < MOD := by
  simp only [powStep]
  split <;> exact Nat.mod_lt _ MOD_pos

/-- One step multiplies the square by the base if the bit is set. -/
theorem powStep_modEq (base e r bit : Nat) :
    powStep base e r bit ≡ r ^ 2 * base ^ (e.testBit bit).toNat [MOD MOD] := by
  cases hb : e.testBit bit
  · simp only [powStep, hb, Bool.false_eq_true, if_false, Bool.toNat_false, pow_zero, mul_one, sq]
    exact Nat.mod_modEq _ _
  · simp only [powStep, hb, if_true, Bool.toNat_true, pow_one, sq]
    exact (Nat.mod_modEq _ _).trans ((Nat.mod_modEq _ _).mul_right base)

/-- The low `n + 1` bits are bit `n` and the low `n` bits. -/
theorem mod_two_pow_add_one (e n : Nat) : e % 2 ^ (n + 1) = (e.testBit n).toNat * 2 ^ n + e % 2 ^ n := by
  rw [Nat.testBit_eq_decide_div_mod_eq, pow_succ, Nat.mod_mul]
  rcases Nat.mod_two_eq_zero_or_one (e / 2 ^ n) with h | h
  · simp [h]
  · simp [h]; ring

/-- The bits below `n` scanned from the top turn `r` into `r^(2^n) · base^(e mod 2^n)`. -/
theorem powStep_foldl (base e r n : Nat) :
    (List.range n).reverse.foldl (powStep base e) r ≡ r ^ 2 ^ n * base ^ (e % 2 ^ n) [MOD MOD] := by
  induction n generalizing r with
  | zero => simp [Nat.mod_one, Nat.ModEq.refl]
  | succ n ih =>
    rw [List.range_succ, List.reverse_append]
    simp only [List.reverse_cons, List.reverse_nil, List.nil_append, List.singleton_append, List.foldl_cons]
    refine (ih _).trans ?_
    refine ((((powStep_modEq base e r n).pow (2 ^ n)).mul_right _)).trans ?_
    have h2 : 2 ^ (n + 1) = 2 * 2 ^ n := Nat.pow_succ'
    rw [mod_two_pow_add_one, mul_pow, ← pow_mul, ← pow_mul, pow_add base, h2, mul_assoc]

/-- Square-and-multiply computes the power (rule R77): `0^0 = 1` included. -/
theorem powNat_eq (base e : Nat) (he : e < 2 ^ 32) : powNat base e = base ^ e % MOD := by
  have h : ∀ n, e < 2 ^ n → (List.range n).reverse.foldl (powStep base e) 1 % MOD = base ^ e % MOD := by
    intro n hn
    have h : _ % MOD = _ % MOD := powStep_foldl base e 1 n
    rwa [one_pow, one_mul, Nat.mod_eq_of_lt hn] at h
  rw [← h 32 he, powNat]
  have : (List.range 32).reverse = 31 :: (List.range 31).reverse := by decide
  have lt : ∀ (l : List Nat) (r : Nat), r < MOD → l.foldl (powStep base e) r < MOD := by
    intro l
    induction l with
    | nil => intro r hr; exact hr
    | cons b l ih => intro r _; exact ih _ (powStep_lt _ _ _ _)
  rw [this, List.foldl_cons]
  exact (Nat.mod_eq_of_lt (lt _ _ (powStep_lt _ _ _ _))).symm

theorem powMod_toNat (base e : Word) : (powMod base e).toNat = base.toNat ^ e.toNat % MOD := by
  rw [powMod, powNat_eq _ _ e.isLt, toNat_ofNat_mod_MOD]

theorem powMod_lt (base e : Word) : (powMod base e).toNat < MOD := by
  rw [powMod_toNat]; exact Nat.mod_lt _ MOD_pos

/-- A power in the field, computed by square-and-multiply. -/
theorem natCast_pow_eq (base e : Nat) (he : e < 2 ^ 32) :
    (base : ZMod MOD) ^ e = ((powNat base e : Nat) : ZMod MOD) := by
  rw [powNat_eq _ _ he, ZMod.natCast_mod, Nat.cast_pow]

/-- Two numbers below `MOD` stand for the same element only if they are the same. -/
theorem natCast_inj_of_lt {a b : Nat} (ha : a < MOD) (hb : b < MOD) :
    (a : ZMod MOD) = (b : ZMod MOD) ↔ a = b := by
  rw [ZMod.natCast_eq_natCast_iff', Nat.mod_eq_of_lt ha, Nat.mod_eq_of_lt hb]

/-- `MOD` is prime (rule R6 (a)): 3 generates the multiplicative group, whose order is `2^23 · 7 · 17`. -/
theorem modulus_prime : Nat.Prime MOD := by
  refine lucas_primality MOD ((3 : Nat) : ZMod MOD) ?_ fun q hq hd => ?_
  · rw [natCast_pow_eq _ _ (by decide), show powNat 3 (MOD - 1) = 1 by decide +kernel, Nat.cast_one]
  · have hfac : MOD - 1 = 2 ^ 23 * 7 * 17 := by decide
    have hcases : q = 2 ∨ q = 7 ∨ q = 17 := by
      rw [hfac] at hd
      rcases (Nat.Prime.dvd_mul hq).1 hd with h | h
      · rcases (Nat.Prime.dvd_mul hq).1 h with h | h
        · exact .inl ((Nat.prime_dvd_prime_iff_eq hq Nat.prime_two).1 (hq.dvd_of_dvd_pow h))
        · exact .inr (.inl ((Nat.prime_dvd_prime_iff_eq hq (by norm_num)).1 h))
      · exact .inr (.inr ((Nat.prime_dvd_prime_iff_eq hq (by norm_num)).1 h))
    have ne : ∀ e r, e < 2 ^ 32 → powNat 3 e = r → r < MOD → r ≠ 1 → ((3 : Nat) : ZMod MOD) ^ e ≠ 1 := by
      intro e r he h hr h1 hc
      rw [natCast_pow_eq _ _ he, h] at hc
      exact h1 ((natCast_inj_of_lt hr one_lt_MOD).1 (by rw [hc, Nat.cast_one]))
    rcases hcases with rfl | rfl | rfl
    · exact ne _ 998244352 (by decide) (by decide +kernel) (by decide) (by decide)
    · exact ne _ _ (by decide) rfl (by decide +kernel) (by decide +kernel)
    · exact ne _ _ (by decide) rfl (by decide +kernel) (by decide +kernel)

/-! ## The table ROM -/

/-- `rootPow[k] = G^(2^(23−k)) mod MOD` (rule R90). -/
theorem rom_root_toNat (k : Nat) : (rom 0 k).toNat = G ^ 2 ^ (23 - k) % MOD := by
  have : 2 ^ (23 - k) < 2 ^ 32 := Nat.pow_lt_pow_right (by omega) (by omega)
  simp only [rom]
  rw [powNat_eq _ _ this, toNat_ofNat_mod_MOD]

/-- `invRootPow[k] = GINV^(2^(23−k)) mod MOD` (rule R90). -/
theorem rom_invRoot_toNat (k : Nat) : (rom 1 k).toNat = GINV ^ 2 ^ (23 - k) % MOD := by
  have : 2 ^ (23 - k) < 2 ^ 32 := Nat.pow_lt_pow_right (by omega) (by omega)
  simp only [rom]
  rw [powNat_eq _ _ this, toNat_ofNat_mod_MOD]

/-- `invLen[k] = (2^k)^(MOD−2) mod MOD` (rule R90). -/
theorem rom_invLen_toNat (k : Nat) : (rom 2 k).toNat = (2 ^ k) ^ (MOD - 2) % MOD := by
  simp only [rom]
  rw [powNat_eq _ _ (by decide), toNat_ofNat_mod_MOD]

theorem rom_lt (t k : Nat) : (rom t k).toNat < MOD := by
  match t with
  | 0 => rw [rom_root_toNat]; exact Nat.mod_lt _ MOD_pos
  | 1 => rw [rom_invRoot_toNat]; exact Nat.mod_lt _ MOD_pos
  | n + 2 =>
    show (rom 2 k).toNat < MOD
    rw [rom_invLen_toNat]; exact Nat.mod_lt _ MOD_pos

theorem romRead_eq_some_iff (t k : Nat) (v : Word) :
    romRead t k = some v ↔ (t ≤ 2 ∧ k ≤ 23) ∧ v = rom t k := by
  simp only [romRead]
  split <;> simp_all [eq_comm]

theorem romRead_eq_none_iff (t k : Nat) : romRead t k = none ↔ 2 < t ∨ 23 < k := by
  simp only [romRead]
  split
  · simp_all
  · simp_all; omega

end Sys2Proof.Machine
end

