-- ==== Sys2Proof/Laws/Carry.lean ====
section
/-! SUPPORT. The laws of the carry pipeline: what the loops of rules R120 and R122 leave. -/

namespace Sys2Proof.Machine

/-- The number a list of words denotes, index 0 the least significant (rule R33). -/
def listValue : List Word → Nat
  | [] => 0
  | w :: ws => w.toNat + 10 * listValue ws

theorem normLoop_nil_zero (room : Nat) : normLoop room [] 0 = some [] := by
  cases room <;> rfl

theorem normLoop_cons (room : Nat) (w : Word) (ws : List Word) (carry : Nat) :
    normLoop (room + 1) (w :: ws) carry =
      (normLoop room ws ((w.toNat + carry) / 10)).map (BitVec.ofNat 32 ((w.toNat + carry) % 10) :: ·) := rfl

theorem normLoop_grow (room carry : Nat) (hc : carry ≠ 0) :
    normLoop (room + 1) [] carry =
      (normLoop room [] (carry / 10)).map (BitVec.ofNat 32 (carry % 10) :: ·) := by
  obtain ⟨c, rfl⟩ := Nat.exists_eq_succ_of_ne_zero hc
  have : normLoop (room + 1) [] (c + 1) =
      (normLoop room [] ((0 + (c + 1)) / 10)).map (BitVec.ofNat 32 ((0 + (c + 1)) % 10) :: ·) := rfl
  simpa using this

theorem toNat_digit (n : Nat) : (BitVec.ofNat 32 (n % 10)).toNat = n % 10 := by
  rw [BitVec.toNat_ofNat]
  exact Nat.mod_eq_of_lt (by omega)

/-- A carry of at most `d` decimal digits grows at most `d` slots. -/
theorem normLoop_nil (d room carry : Nat) (hc : carry < 10 ^ d) (hr : d ≤ room) :
    ∃ ds, normLoop room [] carry = some ds ∧ ds.length ≤ d := by
  induction d generalizing room carry with
  | zero =>
    have : carry = 0 := by simpa using hc
    subst this
    exact ⟨[], normLoop_nil_zero room, le_rfl⟩
  | succ d ih =>
    by_cases h : carry = 0
    · subst h
      exact ⟨[], normLoop_nil_zero room, Nat.zero_le _⟩
    · obtain ⟨room, rfl⟩ : ∃ r, room = r + 1 := ⟨room - 1, by omega⟩
      have hlt : carry / 10 < 10 ^ d := by
        rw [Nat.div_lt_iff_lt_mul (by decide), ← pow_succ]; exact hc
      obtain ⟨ds, h1, h2⟩ := ih room (carry / 10) hlt (by omega)
      exact ⟨_, by rw [normLoop_grow _ _ h, h1]; rfl, by simpa using h2⟩

/-- The loop ends inside the bank, after at most nine slots past the nominal end (rule R121). -/
theorem normLoop_total (ws : List Word) (room carry : Nat) (hc : carry ≤ 477218588)
    (hr : ws.length + 9 ≤ room) :
    ∃ ds, normLoop room ws carry = some ds ∧ ds.length ≤ ws.length + 9 := by
  induction ws generalizing room carry with
  | nil =>
    obtain ⟨ds, h1, h2⟩ := normLoop_nil 9 room carry (lt_of_le_of_lt hc (by decide)) (by simpa using hr)
    exact ⟨ds, h1, by simpa using h2⟩
  | cons w ws ih =>
    simp only [List.length_cons] at hr ⊢
    obtain ⟨room, rfl⟩ : ∃ r, room = r + 1 := ⟨room - 1, by omega⟩
    have hw := w.isLt
    obtain ⟨ds, h1, h2⟩ := ih room ((w.toNat + carry) / 10) (by omega) (by omega)
    exact ⟨_, by rw [normLoop_cons, h1]; rfl, by simp; omega⟩

/-- What the loop stores: decimal digits, at least one a nominal word, with the value of the words and
the carry (rule R121). -/
theorem normLoop_spec (room : Nat) (ws : List Word) (carry : Nat) (ds : List Word)
    (h : normLoop room ws carry = some ds) :
    ws.length ≤ ds.length ∧ (∀ d ∈ ds, d.toNat ≤ 9) ∧ listValue ds = listValue ws + carry := by
  induction room generalizing ws carry ds with
  | zero =>
    cases ws with
    | nil =>
      cases carry with
      | zero => simp [normLoop] at h; subst h; simp [listValue]
      | succ c => simp [normLoop] at h
    | cons w ws => simp [normLoop] at h
  | succ room ih =>
    have turn : ∀ (value : Nat) (rest : List Word),
        (normLoop room rest (value / 10)).map (BitVec.ofNat 32 (value % 10) :: ·) = some ds →
        rest.length + 1 ≤ ds.length ∧ (∀ d ∈ ds, d.toNat ≤ 9) ∧ listValue ds = value + 10 * listValue rest := by
      intro value rest h
      obtain ⟨es, he, rfl⟩ := Option.map_eq_some_iff.1 h
      obtain ⟨h1, h2, h3⟩ := ih _ _ _ he
      refine ⟨by simp; omega, fun d hd => ?_, ?_⟩
      · rcases List.mem_cons.1 hd with rfl | hd
        · rw [toNat_digit]; omega
        · exact h2 d hd
      · simp only [listValue, toNat_digit, h3]
        omega
    cases ws with
    | nil =>
      by_cases hc : carry = 0
      · subst hc
        rw [normLoop_nil_zero] at h
        cases h
        simp [listValue]
      · rw [normLoop_grow _ _ hc] at h
        obtain ⟨_, h2, h3⟩ := turn carry [] h
        exact ⟨by simp, h2, by simp only [listValue] at h3 ⊢; omega⟩
    | cons w ws =>
      rw [normLoop_cons] at h
      obtain ⟨h1, h2, h3⟩ := turn _ ws h
      exact ⟨by simpa using h1, h2, by simp only [listValue]; omega⟩

/-- The loop stores no more digits than the bank has room for. -/
theorem normLoop_length_le (room : Nat) (ws : List Word) (carry : Nat) (ds : List Word)
    (h : normLoop room ws carry = some ds) : ds.length ≤ room := by
  induction room generalizing ws carry ds with
  | zero =>
    cases ws with
    | nil =>
      cases carry with
      | zero => simp [normLoop] at h; simp [h]
      | succ c => simp [normLoop] at h
    | cons w ws => simp [normLoop] at h
  | succ room ih =>
    have turn : ∀ (value : Nat) (rest : List Word),
        (normLoop room rest (value / 10)).map (BitVec.ofNat 32 (value % 10) :: ·) = some ds →
        ds.length ≤ room + 1 := by
      intro value rest h
      obtain ⟨es, he, rfl⟩ := Option.map_eq_some_iff.1 h
      simpa using ih _ _ _ he
    cases ws with
    | nil =>
      by_cases hc : carry = 0
      · subst hc
        rw [normLoop_nil_zero] at h
        cases h
        simp
      · rw [normLoop_grow _ _ hc] at h
        exact turn carry [] h
    | cons w ws =>
      rw [normLoop_cons] at h
      exact turn _ ws h

/-! ## Trim -/

theorem trimCount_le_one (word : Nat → Word) {n : Nat} (h : n ≤ 1) : trimCount word n = n := by
  match n, h with
  | 0, _ => rfl
  | 1, _ => rfl

theorem trimCount_le (word : Nat → Word) (n : Nat) : trimCount word n ≤ n := by
  match n with
  | 0 => exact le_rfl
  | 1 => exact le_rfl
  | n + 2 =>
    have := trimCount_le word (n + 1)
    simp only [trimCount]
    split <;> omega

/-- The slots dropped hold 0, one slot is kept, and the highest slot kept is not 0 unless it is the only
one (rule R122). -/
theorem trimCount_spec (word : Nat → Word) (n : Nat) (hn : 1 ≤ n) :
    1 ≤ trimCount word n ∧ (∀ i, trimCount word n ≤ i → i < n → word i = 0) ∧
    (trimCount word n = 1 ∨ word (trimCount word n - 1) ≠ 0) := by
  match n, hn with
  | 1, _ => exact ⟨le_rfl, fun i h1 h2 => absurd h1 (by simp [trimCount]; omega), .inl rfl⟩
  | n + 2, _ =>
    by_cases h : word (n + 1) = 0
    · have e : trimCount word (n + 2) = trimCount word (n + 1) := if_pos h
      rw [e]
      obtain ⟨h1, h2, h3⟩ := trimCount_spec word (n + 1) (by omega)
      refine ⟨h1, fun i hi hlt => ?_, h3⟩
      by_cases hin : i = n + 1
      · rw [hin, h]
      · exact h2 i hi (by omega)
    · have e : trimCount word (n + 2) = n + 2 := if_neg h
      rw [e]
      exact ⟨by omega, fun i h1 h2 => absurd h2 (by omega), .inr h⟩

/-- A grown slot never ends as a leading zero. -/
theorem normLoop_last (room : Nat) (ws : List Word) (carry : Nat) (ds : List Word)
    (h : normLoop room ws carry = some ds) : ds.length = ws.length ∨ ds.getD (ds.length - 1) 0 ≠ 0 := by
  induction room generalizing ws carry ds with
  | zero =>
    cases ws with
    | nil => cases carry with
      | zero => simp [normLoop] at h; simp [h]
      | succ c => simp [normLoop] at h
    | cons w ws => simp [normLoop] at h
  | succ room ih =>
    cases ws with
    | nil =>
      by_cases hc : carry = 0
      · subst hc; rw [normLoop_nil_zero] at h; cases h; simp
      · rw [normLoop_grow _ _ hc] at h
        obtain ⟨es, he, rfl⟩ := Option.map_eq_some_iff.1 h
        right
        rcases ih _ _ _ he with h1 | h1
        · have hes : es = [] := List.length_eq_zero_iff.1 h1
          subst hes
          have hv := (normLoop_spec _ _ _ _ he).2.2
          simp only [listValue] at hv
          show BitVec.ofNat 32 (carry % 10) ≠ 0
          intro h0
          have h0 := congrArg BitVec.toNat h0
          rw [toNat_digit] at h0
          simp at h0
          omega
        · cases es with
          | nil => simp at h1
          | cons e es => simpa using h1
    | cons w ws =>
      rw [normLoop_cons] at h
      obtain ⟨es, he, rfl⟩ := Option.map_eq_some_iff.1 h
      rcases ih _ _ _ he with h1 | h1
      · left; simpa using h1
      · cases es with
        | nil => simp at h1
        | cons e es => right; simpa using h1

/-- With fewer slots than nominal words the loop runs past the end. -/
theorem normLoop_none (room : Nat) (ws : List Word) (carry : Nat) (h : room < ws.length) :
    normLoop room ws carry = none := by
  cases hd : normLoop room ws carry with
  | none => rfl
  | some ds =>
    have h1 := (normLoop_spec _ _ _ _ hd).1
    have h2 := normLoop_length_le _ _ _ _ hd
    omega

/-- The number a list denotes, as a sum over its indices. -/
theorem listValue_eq_sum (ws : List Word) :
    listValue ws = ∑ i ∈ Finset.range ws.length, (ws.getD i 0).toNat * 10 ^ i := by
  induction ws with
  | nil => rfl
  | cons w ws ih =>
    rw [List.length_cons, Finset.sum_range_succ', listValue, ih, Finset.mul_sum, add_comm]
    simp only [List.getD_cons_zero, pow_zero, mul_one, List.getD_cons_succ]
    congr 1
    apply Finset.sum_congr rfl
    intro i _
    rw [pow_succ]
    ring

end Sys2Proof.Machine
end

