-- ==== Sys2Proof/Laws/Decode.lean ====
section
/-! SUPPORT. The four formats of rule R52, field by field: each field of a word put together from fields
is the field it was put together from, the must-be-zero bits are zero, and a word whose must-be-zero bits
are zero is put together from its fields. -/

namespace Sys2Proof

theorem bit_bankOfBit (b : BitVec 1) : (bankOfBit b).bit = b := by revert b; decide
theorem bankOfBit_bit (b : BankId) : bankOfBit b.bit = b := by cases b <;> rfl
theorem bit_dirOfBit (b : BitVec 1) : (dirOfBit b).bit = b := by revert b; decide
theorem dirOfBit_bit (d : Dir) : dirOfBit d.bit = d := by cases d <;> rfl

/-! ## Format `S` -/

theorem fieldOp_wordS (op : BitVec 8) (rd ra rb : Reg) : fieldOp (wordS op rd ra rb) = op := by
  apply BitVec.eq_of_getLsbD_eq
  intro i hi
  simp only [wordS, fieldOp, BitVec.getLsbD_append, BitVec.getLsbD_extractLsb']
  interval_cases i <;> simp

theorem rdBits_wordS (op : BitVec 8) (rd ra rb : Reg) : (wordS op rd ra rb).extractLsb' 20 4 = BitVec.ofFin (w := 4) rd := by
  apply BitVec.eq_of_getLsbD_eq
  intro i hi
  simp only [wordS, BitVec.getLsbD_append, BitVec.getLsbD_extractLsb']
  interval_cases i <;> simp

theorem raBits_wordS (op : BitVec 8) (rd ra rb : Reg) : (wordS op rd ra rb).extractLsb' 16 4 = BitVec.ofFin (w := 4) ra := by
  apply BitVec.eq_of_getLsbD_eq
  intro i hi
  simp only [wordS, BitVec.getLsbD_append, BitVec.getLsbD_extractLsb']
  interval_cases i <;> simp

theorem rbBits_wordS (op : BitVec 8) (rd ra rb : Reg) : (wordS op rd ra rb).extractLsb' 12 4 = BitVec.ofFin (w := 4) rb := by
  apply BitVec.eq_of_getLsbD_eq
  intro i hi
  simp only [wordS, BitVec.getLsbD_append, BitVec.getLsbD_extractLsb']
  interval_cases i <;> simp

theorem mask_wordS (op : BitVec 8) (rd ra rb : Reg) : wordS op rd ra rb &&& 0xFF000FFF = op ++ 0#24 := by
  apply BitVec.eq_of_getLsbD_eq
  intro i hi
  simp only [wordS, BitVec.getLsbD_and, BitVec.getLsbD_append]
  interval_cases i <;> simp

theorem wordS_fields (op : BitVec 8) (c : Word) (h : c &&& 0xFF000FFF = op ++ 0#24) :
    wordS op (fieldRd c) (fieldRa c) (fieldRb c) = c := by
  apply BitVec.eq_of_getLsbD_eq
  intro i hi
  have hb := congrArg (fun w => w.getLsbD i) h
  simp only [BitVec.getLsbD_and, BitVec.getLsbD_append] at hb
  simp only [wordS, fieldRd, fieldRa, fieldRb, BitVec.getLsbD_append, BitVec.ofFin_toFin,
    BitVec.getLsbD_extractLsb']
  interval_cases i <;> simp at hb ⊢ <;> simp [hb]

/-! ## Format `T` -/

theorem fieldOp_wordT (op : BitVec 8) (rd : Reg) (t k : Nat) : fieldOp (wordT op rd t k) = op := by
  apply BitVec.eq_of_getLsbD_eq
  intro i hi
  simp only [wordT, fieldOp, BitVec.getLsbD_append, BitVec.getLsbD_extractLsb']
  interval_cases i <;> simp

theorem rdBits_wordT (op : BitVec 8) (rd : Reg) (t k : Nat) : (wordT op rd t k).extractLsb' 20 4 = BitVec.ofFin (w := 4) rd := by
  apply BitVec.eq_of_getLsbD_eq
  intro i hi
  simp only [wordT, BitVec.getLsbD_append, BitVec.getLsbD_extractLsb']
  interval_cases i <;> simp

theorem tBits_wordT (op : BitVec 8) (rd : Reg) (t k : Nat) : (wordT op rd t k).extractLsb' 5 2 = BitVec.ofNat 2 t := by
  apply BitVec.eq_of_getLsbD_eq
  intro i hi
  simp only [wordT, BitVec.getLsbD_append, BitVec.getLsbD_extractLsb']
  interval_cases i <;> simp

theorem kBits_wordT (op : BitVec 8) (rd : Reg) (t k : Nat) : (wordT op rd t k).extractLsb' 0 5 = BitVec.ofNat 5 k := by
  apply BitVec.eq_of_getLsbD_eq
  intro i hi
  simp only [wordT, BitVec.getLsbD_append, BitVec.getLsbD_extractLsb']
  interval_cases i <;> simp

theorem mask_wordT (op : BitVec 8) (rd : Reg) (t k : Nat) : wordT op rd t k &&& 0xFF0FFF80 = op ++ 0#24 := by
  apply BitVec.eq_of_getLsbD_eq
  intro i hi
  simp only [wordT, BitVec.getLsbD_and, BitVec.getLsbD_append]
  interval_cases i <;> simp

theorem wordT_fields (op : BitVec 8) (c : Word) (h : c &&& 0xFF0FFF80 = op ++ 0#24) :
    wordT op (fieldRd c) (fieldT c) (fieldImm5 c) = c := by
  apply BitVec.eq_of_getLsbD_eq
  intro i hi
  have hb := congrArg (fun w => w.getLsbD i) h
  simp only [BitVec.getLsbD_and, BitVec.getLsbD_append] at hb
  simp only [wordT, fieldRd, fieldT, fieldImm5, BitVec.ofNat_toNat, BitVec.setWidth_eq, BitVec.getLsbD_append,
    BitVec.ofFin_toFin, BitVec.getLsbD_extractLsb']
  interval_cases i <;> simp at hb ⊢ <;> simp [hb]

/-! ## Format `M` -/

theorem fieldOp_wordM (op : BitVec 8) (rd : Reg) (bd : BankId) (ra : Reg) : fieldOp (wordM op rd bd ra) = op := by
  apply BitVec.eq_of_getLsbD_eq
  intro i hi
  simp only [wordM, fieldOp, BitVec.getLsbD_append, BitVec.getLsbD_extractLsb']
  interval_cases i <;> simp

theorem rdBits_wordM (op : BitVec 8) (rd : Reg) (bd : BankId) (ra : Reg) : (wordM op rd bd ra).extractLsb' 20 4 = BitVec.ofFin (w := 4) rd := by
  apply BitVec.eq_of_getLsbD_eq
  intro i hi
  simp only [wordM, BitVec.getLsbD_append, BitVec.getLsbD_extractLsb']
  interval_cases i <;> simp

theorem raBits_wordM (op : BitVec 8) (rd : Reg) (bd : BankId) (ra : Reg) : (wordM op rd bd ra).extractLsb' 16 4 = BitVec.ofFin (w := 4) ra := by
  apply BitVec.eq_of_getLsbD_eq
  intro i hi
  simp only [wordM, BitVec.getLsbD_append, BitVec.getLsbD_extractLsb']
  interval_cases i <;> simp

theorem bdBit_wordM (op : BitVec 8) (rd : Reg) (bd : BankId) (ra : Reg) : (wordM op rd bd ra).extractLsb' 8 1 = bd.bit := by
  apply BitVec.eq_of_getLsbD_eq
  intro i hi
  simp only [wordM, BitVec.getLsbD_append, BitVec.getLsbD_extractLsb']
  interval_cases i
  simp

theorem mask_wordM (op : BitVec 8) (rd : Reg) (bd : BankId) (ra : Reg) :
    wordM op rd bd ra &&& 0xFF00FEFF = op ++ 0#24 := by
  apply BitVec.eq_of_getLsbD_eq
  intro i hi
  simp only [wordM, BitVec.getLsbD_and, BitVec.getLsbD_append]
  interval_cases i <;> simp

theorem wordM_fields (op : BitVec 8) (c : Word) (h : c &&& 0xFF00FEFF = op ++ 0#24) :
    wordM op (fieldRd c) (fieldBd c) (fieldRa c) = c := by
  apply BitVec.eq_of_getLsbD_eq
  intro i hi
  have hb := congrArg (fun w => w.getLsbD i) h
  simp only [BitVec.getLsbD_and, BitVec.getLsbD_append] at hb
  simp only [wordM, fieldRd, fieldBd, fieldRa, bit_bankOfBit, BitVec.getLsbD_append, BitVec.ofFin_toFin,
    BitVec.getLsbD_extractLsb']
  interval_cases i <;> simp at hb ⊢ <;> simp [hb]

/-! ## Format `V` -/

theorem fieldOp_wordV (op : BitVec 8) (bs bd : BitVec 1) (imm5 : BitVec 5) : fieldOp (wordV op bs bd imm5) = op := by
  apply BitVec.eq_of_getLsbD_eq
  intro i hi
  simp only [wordV, fieldOp, BitVec.getLsbD_append, BitVec.getLsbD_extractLsb']
  interval_cases i <;> simp

theorem bsBit_wordV (op : BitVec 8) (bs bd : BitVec 1) (imm5 : BitVec 5) : (wordV op bs bd imm5).extractLsb' 9 1 = bs := by
  apply BitVec.eq_of_getLsbD_eq
  intro i hi
  simp only [wordV, BitVec.getLsbD_append, BitVec.getLsbD_extractLsb']
  interval_cases i
  simp

theorem bdBit_wordV (op : BitVec 8) (bs bd : BitVec 1) (imm5 : BitVec 5) : (wordV op bs bd imm5).extractLsb' 8 1 = bd := by
  apply BitVec.eq_of_getLsbD_eq
  intro i hi
  simp only [wordV, BitVec.getLsbD_append, BitVec.getLsbD_extractLsb']
  interval_cases i
  simp

theorem immBits_wordV (op : BitVec 8) (bs bd : BitVec 1) (imm5 : BitVec 5) : (wordV op bs bd imm5).extractLsb' 0 5 = imm5 := by
  apply BitVec.eq_of_getLsbD_eq
  intro i hi
  simp only [wordV, BitVec.getLsbD_append, BitVec.getLsbD_extractLsb']
  interval_cases i <;> simp

theorem dirBit_wordV (op : BitVec 8) (bs bd : BitVec 1) (dir : Dir) :
    (wordV op bs bd (0#4 ++ dir.bit)).extractLsb' 0 1 = dir.bit := by
  apply BitVec.eq_of_getLsbD_eq
  intro i hi
  simp only [wordV, BitVec.getLsbD_append, BitVec.getLsbD_extractLsb']
  interval_cases i
  simp

/-- A `V` word whose unused bits are zero is put together from its bank bits and immediate. -/
theorem wordV_fields (op : BitVec 8) (c : Word) (h : c &&& 0xFFFFFCE0 = op ++ 0#24) :
    wordV op (c.extractLsb' 9 1) (c.extractLsb' 8 1) (c.extractLsb' 0 5) = c := by
  apply BitVec.eq_of_getLsbD_eq
  intro i hi
  have hb := congrArg (fun w => w.getLsbD i) h
  simp only [BitVec.getLsbD_and, BitVec.getLsbD_append] at hb
  simp only [wordV, BitVec.getLsbD_append, BitVec.getLsbD_extractLsb']
  interval_cases i <;> simp at hb ⊢ <;> simp [hb]

end Sys2Proof
end

