-- ==== Sys2Proof/Laws/Roots.lean ====
section
/-! SUPPORT. The roots of unity of the table ROM as elements of the field (rule R93): their powers, their
order, and the orthogonality of the two directions that the transform rests on. -/

namespace Sys2Proof.Machine

/-! ## Numbers and field elements -/

/-- A residue is known from the field element it stands for. -/
theorem mod_of_natCast_eq {a b : Nat} (hb : b < MOD) (h : (a : ZMod MOD) = (b : ZMod MOD)) : a % MOD = b := by
  have := (ZMod.natCast_eq_natCast_iff' _ _ _).1 h
  rwa [Nat.mod_eq_of_lt hb] at this

/-- A field element's word is known from the number it stands for. -/
theorem toNat_of_fieldElem {w : Word} (hw : w.toNat < MOD) {n : Nat} (h : fieldElem w = (n : ZMod MOD)) :
    w.toNat = n % MOD := (mod_of_natCast_eq hw h.symm).symm

theorem natCast_MOD_sub_one : ((MOD - 1 : Nat) : ZMod MOD) = -1 := by
  rw [Nat.cast_sub one_lt_MOD.le]; simp

theorem two_ne_zero_MOD : (2 : ZMod MOD) ≠ 0 := by
  intro h
  have := (natCast_inj_of_lt (a := 2) (b := 0) (by decide) MOD_pos).1 (by rw [Nat.cast_ofNat, h, Nat.cast_zero])
  omega

theorem neg_one_ne_one_MOD : (-1 : ZMod MOD) ≠ 1 := by
  intro h
  have : ((MOD - 1 : Nat) : ZMod MOD) = ((1 : Nat) : ZMod MOD) := by rw [natCast_MOD_sub_one, h, Nat.cast_one]
  exact absurd ((natCast_inj_of_lt (by decide) one_lt_MOD).1 this) (by decide)

/-! ## The generators -/

theorem G_pow_full : (G : ZMod MOD) ^ 2 ^ 23 = 1 := by
  rw [natCast_pow_eq _ _ (by decide), show powNat G (2 ^ 23) = 1 by decide +kernel, Nat.cast_one]

theorem G_pow_half : (G : ZMod MOD) ^ 2 ^ 22 = -1 := by
  rw [natCast_pow_eq _ _ (by decide), show powNat G (2 ^ 22) = MOD - 1 by decide +kernel, natCast_MOD_sub_one]

theorem GINV_pow_full : (GINV : ZMod MOD) ^ 2 ^ 23 = 1 := by
  rw [natCast_pow_eq _ _ (by decide), show powNat GINV (2 ^ 23) = 1 by decide +kernel, Nat.cast_one]

theorem GINV_pow_half : (GINV : ZMod MOD) ^ 2 ^ 22 = -1 := by
  rw [natCast_pow_eq _ _ (by decide), show powNat GINV (2 ^ 22) = MOD - 1 by decide +kernel,
    natCast_MOD_sub_one]

theorem G_mul_GINV : (G : ZMod MOD) * (GINV : ZMod MOD) = 1 := by
  rw [← Nat.cast_mul, ← ZMod.natCast_mod, show G * GINV % MOD = 1 by decide, Nat.cast_one]

/-! ## The entries of the tables -/

theorem fieldElem_rom_root (k : Nat) : fieldElem (rom 0 k) = (G : ZMod MOD) ^ 2 ^ (23 - k) := by
  rw [fieldElem, rom_root_toNat, ZMod.natCast_mod, Nat.cast_pow]

theorem fieldElem_rom_invRoot (k : Nat) : fieldElem (rom 1 k) = (GINV : ZMod MOD) ^ 2 ^ (23 - k) := by
  rw [fieldElem, rom_invRoot_toNat, ZMod.natCast_mod, Nat.cast_pow]

/-- The root a direction uses in stage `k`. -/
def root (dir : Dir) (k : Nat) : ZMod MOD := fieldElem (rom (rootTable dir) k)

theorem root_sq (dir : Dir) (k : Nat) (hk : k < 23) : root dir (k + 1) ^ 2 = root dir k := by
  have e : 2 ^ (23 - (k + 1)) * 2 = 2 ^ (23 - k) := by rw [← pow_succ]; congr 1; omega
  cases dir
  · simp only [root, rootTable, fieldElem_rom_root]; rw [← pow_mul, e]
  · simp only [root, rootTable, fieldElem_rom_invRoot]; rw [← pow_mul, e]

theorem root_pow_half (dir : Dir) (k : Nat) (hk : k < 23) : root dir (k + 1) ^ 2 ^ k = -1 := by
  have e : 2 ^ (23 - (k + 1)) * 2 ^ k = 2 ^ 22 := by rw [← pow_add]; congr 1; omega
  cases dir
  · simp only [root, rootTable, fieldElem_rom_root]; rw [← pow_mul, e, G_pow_half]
  · simp only [root, rootTable, fieldElem_rom_invRoot]; rw [← pow_mul, e, GINV_pow_half]

theorem root_pow_full (dir : Dir) (k : Nat) (hk : k ≤ 23) : root dir k ^ 2 ^ k = 1 := by
  have e : 2 ^ (23 - k) * 2 ^ k = 2 ^ 23 := by rw [← pow_add]; congr 1; omega
  cases dir
  · simp only [root, rootTable, fieldElem_rom_root]; rw [← pow_mul, e, G_pow_full]
  · simp only [root, rootTable, fieldElem_rom_invRoot]; rw [← pow_mul, e, GINV_pow_full]

/-- The direction that undoes a direction. -/
def otherDir : Dir → Dir
  | .fwd => .inv
  | .inv => .fwd

theorem root_mul_other (dir : Dir) (k : Nat) : root dir k * root (otherDir dir) k = 1 := by
  have e : fieldElem (rom 0 k) * fieldElem (rom 1 k) = 1 := by
    rw [fieldElem_rom_root, fieldElem_rom_invRoot, ← mul_pow, G_mul_GINV, one_pow]
  cases dir
  · exact e
  · rw [mul_comm]; exact e

/-- `invLen[k]` is the inverse of `2^k`, by Fermat (rules R79, R93). -/
theorem fieldElem_rom_invLen_mul (k : Nat) : fieldElem (rom 2 k) * (2 : ZMod MOD) ^ k = 1 := by
  have : Fact (Nat.Prime MOD) := ⟨modulus_prime⟩
  rw [fieldElem, rom_invLen_toNat, ZMod.natCast_mod, Nat.cast_pow, Nat.cast_pow, Nat.cast_ofNat, ← pow_succ,
    show MOD - 2 + 1 = MOD - 1 by decide]
  exact ZMod.pow_card_sub_one_eq_one (pow_ne_zero _ two_ne_zero_MOD)

/-! ## Order and orthogonality -/

/-- The root of stage `k` has order exactly `2^k` (rule R93). -/
theorem orderOf_root (dir : Dir) (k : Nat) (hk : k ≤ 23) : orderOf (root dir k) = 2 ^ k := by
  cases k with
  | zero =>
    have := root_pow_full dir 0 hk
    rw [pow_zero, orderOf_eq_one_iff]
    simpa using this
  | succ k =>
    apply orderOf_eq_prime_pow
    · rw [root_pow_half dir k (by omega)]
      exact neg_one_ne_one_MOD
    · exact root_pow_full dir (k + 1) hk

/-- The powers of the roots of the two directions are orthogonal. -/
theorem sum_root_mul_other (dir : Dir) (L : Nat) (hL : L ≤ 23) (i j : Nat) (hi : i < 2 ^ L) (hj : j < 2 ^ L) :
    ∑ m ∈ Finset.range (2 ^ L), root dir L ^ (m * j) * root (otherDir dir) L ^ (i * m) =
      if i = j then (2 : ZMod MOD) ^ L else 0 := by
  have : Fact (Nat.Prime MOD) := ⟨modulus_prime⟩
  set w := root dir L with hw
  set v := root (otherDir dir) L with hv
  have hwv : w * v = 1 := root_mul_other dir L
  have e : ∀ m, w ^ (m * j) * v ^ (i * m) = (w ^ j * v ^ i) ^ m := by
    intro m
    rw [mul_pow, ← pow_mul, ← pow_mul, mul_comm m j]
  simp only [e]
  split
  · rename_i h
    subst h
    rw [← mul_pow, hwv]
    simp
  · rename_i h
    have hne : w ^ j * v ^ i ≠ 1 := by
      intro h1
      apply h
      have h2 : w ^ j = w ^ i := by
        calc w ^ j = w ^ j * v ^ i * w ^ i := by
              rw [mul_assoc, ← mul_pow, mul_comm v w, hwv, one_pow, mul_one]
          _ = w ^ i := by rw [h1, one_mul]
      have ho := orderOf_root dir L hL
      exact (pow_injOn_Iio_orderOf (Set.mem_Iio.2 (by rw [ho]; exact hj))
        (Set.mem_Iio.2 (by rw [ho]; exact hi)) h2).symm
    have hpow : (w ^ j * v ^ i) ^ 2 ^ L = 1 := by
      rw [mul_pow, ← pow_mul, ← pow_mul, mul_comm j, mul_comm i, pow_mul, pow_mul, root_pow_full dir L hL,
        root_pow_full (otherDir dir) L hL]
      simp
    have := geom_sum_mul (w ^ j * v ^ i) (2 ^ L)
    rw [hpow, sub_self] at this
    exact (mul_eq_zero.1 this).resolve_right (sub_ne_zero.2 hne)

/-- Transforming with one direction, then the other, and dividing by the length gives back the sequence. -/
theorem double_transform (dir : Dir) (L : Nat) (hL : L ≤ 23) (x : Nat → ZMod MOD) (i : Nat)
    (hi : i < 2 ^ L) :
    fieldElem (rom 2 L) * ∑ m ∈ Finset.range (2 ^ L),
      (∑ j ∈ Finset.range (2 ^ L), x j * root dir L ^ (m * j)) * root (otherDir dir) L ^ (i * m) = x i := by
  simp only [Finset.sum_mul]
  rw [Finset.sum_comm]
  have e : ∀ j ∈ Finset.range (2 ^ L), ∑ m ∈ Finset.range (2 ^ L),
      x j * root dir L ^ (m * j) * root (otherDir dir) L ^ (i * m) =
        if i = j then x j * (2 : ZMod MOD) ^ L else 0 := by
    intro j hj
    simp only [mul_assoc]
    rw [← Finset.mul_sum, sum_root_mul_other dir L hL i j hi (Finset.mem_range.1 hj)]
    split <;> simp
  rw [Finset.sum_congr rfl e, Finset.sum_ite_eq, if_pos (Finset.mem_range.2 hi), mul_left_comm,
    fieldElem_rom_invLen_mul, mul_one]

/-! ## Cyclic convolution -/

theorem cyclic_index (n l j : Nat) (hl : l < n) (hj : j < n) : ((l + j) % n + n - j) % n = l := by
  by_cases h : l + j < n
  · rw [Nat.mod_eq_of_lt h, show l + j + n - j = l + n by omega, Nat.add_mod_right, Nat.mod_eq_of_lt hl]
  · have e : (l + j) % n = l + j - n := by
      rw [Nat.mod_eq_sub_mod (by omega), Nat.mod_eq_of_lt (by omega)]
    rw [e, show l + j - n + n - j = l by omega, Nat.mod_eq_of_lt hl]

/-- The product of two transforms is the transform of the cyclic convolution. -/
theorem transform_mul_transform (L : Nat) (hL : L ≤ 23) (dir : Dir) (a b : Nat → ZMod MOD) (k : Nat) :
    (∑ j ∈ Finset.range (2 ^ L), a j * root dir L ^ (k * j)) *
      (∑ j ∈ Finset.range (2 ^ L), b j * root dir L ^ (k * j)) =
    ∑ m ∈ Finset.range (2 ^ L),
      (∑ j ∈ Finset.range (2 ^ L), a j * b ((m + 2 ^ L - j) % 2 ^ L)) * root dir L ^ (k * m) := by
  set n := 2 ^ L with hn
  have npos : 0 < n := by rw [hn]; positivity
  set w := root dir L with hw
  have hw1 : w ^ n = 1 := root_pow_full dir L hL
  have hper : ∀ m, w ^ (k * (m % n)) = w ^ (k * m) := by
    intro m
    conv_rhs =>
      rw [← Nat.mod_add_div m n, Nat.mul_add, pow_add, show k * (n * (m / n)) = n * (k * (m / n)) by ring,
        pow_mul w n, hw1, one_pow, mul_one]
  simp only [Finset.sum_mul]
  rw [Finset.sum_comm]
  apply Finset.sum_congr rfl
  intro j hj
  have hj := Finset.mem_range.1 hj
  rw [Finset.mul_sum]
  refine Finset.sum_nbij' (fun l => (l + j) % n) (fun m => (m + n - j) % n) ?_ ?_ ?_ ?_ ?_
  · intro l _
    exact Finset.mem_range.2 (Nat.mod_lt _ npos)
  · intro l _
    exact Finset.mem_range.2 (Nat.mod_lt _ npos)
  · intro l hl
    exact cyclic_index n l j (Finset.mem_range.1 hl) hj
  · intro m hm
    have hm := Finset.mem_range.1 hm
    show ((m + n - j) % n + j) % n = m
    rw [Nat.mod_add_mod, show m + n - j + j = m + n by omega, Nat.add_mod_right, Nat.mod_eq_of_lt hm]
  · intro l hl
    have hidx := cyclic_index n l j (Finset.mem_range.1 hl) hj
    simp only [hidx, hper]
    rw [show k * (l + j) = k * j + k * l by ring, pow_add]
    ring

end Sys2Proof.Machine
end

