-- ==== Sys2Proof/Laws/Transform.lean ====
section
/-! SUPPORT. The laws of the array operations: bit reversal is an involution and permutes the array, one
butterfly stage word by word, lengths, and that field elements stay field elements. -/

namespace Sys2Proof.Machine

/-- Reading a list after one word of it was replaced. -/
theorem getD_set (a : List Word) (i j : Nat) (v : Word) :
    (a.set i v).getD j 0 = if j = i ∧ i < a.length then v else a.getD j 0 := by
  simp only [List.getD_eq_getElem?_getD, List.getElem?_set]
  by_cases h : i = j
  · subst h
    by_cases hl : i < a.length
    · simp [hl]
    · simp [hl]
  · simp [h, Ne.symm h]

/-! ## Bit reversal -/

theorem rev_lt (L i : Nat) : rev L i < 2 ^ L := by
  induction L generalizing i with
  | zero => simp [rev]
  | succ L ih =>
    have h1 := ih (i / 2)
    have h2 : i % 2 < 2 := Nat.mod_lt _ (by decide)
    have h3 : 2 ^ (L + 1) = 2 * 2 ^ L := Nat.pow_succ'
    simp only [rev, h3]
    rcases Nat.mod_two_eq_zero_or_one i with h | h <;> simp only [h] <;> omega

/-- Reversing a number given by its top bit and the rest. -/
theorem rev_top (L b j : Nat) (hb : b < 2) (hj : j < 2 ^ L) : rev (L + 1) (b * 2 ^ L + j) = b + 2 * rev L j := by
  induction L generalizing j with
  | zero =>
    have : j = 0 := by simpa using hj
    subst this
    simp [rev, Nat.mod_eq_of_lt hb]
  | succ L ih =>
    have h3 : 2 ^ (L + 1) = 2 * 2 ^ L := Nat.pow_succ'
    have hm : (b * 2 ^ (L + 1) + j) % 2 = j % 2 := by
      rw [h3, show b * (2 * 2 ^ L) = 2 * (b * 2 ^ L) by ring]
      omega
    have hd : (b * 2 ^ (L + 1) + j) / 2 = b * 2 ^ L + j / 2 := by
      rw [h3, show b * (2 * 2 ^ L) + j = j + 2 * (b * 2 ^ L) by ring, Nat.add_mul_div_left _ _ (by decide)]
      omega
    rw [rev, hm, hd, ih (j / 2) (by omega)]
    simp only [rev, h3]
    ring

/-- Reversing twice gives the number back (rule R101). -/
theorem rev_rev (L i : Nat) (hi : i < 2 ^ L) : rev L (rev L i) = i := by
  induction L generalizing i with
  | zero => simp at hi; simp [rev, hi]
  | succ L ih =>
    have h3 : 2 ^ (L + 1) = 2 * 2 ^ L := Nat.pow_succ'
    have : rev (L + 1) i = i % 2 * 2 ^ L + rev L (i / 2) := rfl
    rw [this, rev_top L _ _ (Nat.mod_lt _ (by decide)) (rev_lt L _), ih _ (by omega)]
    omega

/-- `rev` is the sum of rule R101. -/
theorem rev_eq_sum (L i : Nat) :
    rev L i = ∑ b ∈ Finset.range L, (i.testBit b).toNat * 2 ^ (L - 1 - b) := by
  induction L generalizing i with
  | zero => simp [rev]
  | succ L ih =>
    rw [rev, Finset.sum_range_succ', ih, add_comm]
    congr 1
    · refine Finset.sum_congr rfl fun b _ => ?_
      rw [Nat.testBit_succ]
      congr 2
      omega
    · have : (i.testBit 0).toNat = i % 2 := by
        rw [Nat.testBit_zero]
        rcases Nat.mod_two_eq_zero_or_one i with h | h <;> simp [h]
      rw [this]
      simp

@[simp] theorem length_swapWords (a : List Word) (i r : Nat) : (swapWords a i r).length = a.length := by
  simp [swapWords]

@[simp] theorem length_brevTurn (L : Nat) (a : List Word) (i : Nat) : (brevTurn L a i).length = a.length := by
  simp only [brevTurn]; split <;> simp

theorem length_foldl_brevTurn (L : Nat) (is : List Nat) (a : List Word) :
    (is.foldl (brevTurn L) a).length = a.length := by
  induction is generalizing a with
  | nil => rfl
  | cons i is ih => simp [ih]

@[simp] theorem length_brevArray (L : Nat) (a : List Word) : (brevArray L a).length = a.length :=
  length_foldl_brevTurn L _ a

theorem getD_swapWords (a : List Word) {i r : Nat} (hi : i < a.length) (hr : r < a.length) (p : Nat) :
    (swapWords a i r).getD p 0 = if p = r then a.getD i 0 else if p = i then a.getD r 0 else a.getD p 0 := by
  simp only [swapWords, getD_set, List.length_set, hi, hr, and_true]

/-- After the turns below `m` the pairs whose lower index is below `m` have been exchanged. -/
theorem getD_foldl_brevTurn (L m : Nat) (a : List Word) (ha : a.length = 2 ^ L) (hm : m ≤ 2 ^ L) (p : Nat)
    (hp : p < 2 ^ L) :
    ((List.range m).foldl (brevTurn L) a).getD p 0 =
      if p < m ∨ rev L p < m then a.getD (rev L p) 0 else a.getD p 0 := by
  induction m generalizing p with
  | zero => simp
  | succ m ih =>
    have ihm := fun q hq => ih (by omega) q hq
    rw [List.range_succ, List.foldl_append, List.foldl_cons, List.foldl_nil]
    have hlen : ((List.range m).foldl (brevTurn L) a).length = 2 ^ L := by
      rw [length_foldl_brevTurn, ha]
    have hrm := rev_lt L m
    have hrp := rev_lt L p
    have inv := rev_rev L p hp
    have invm := rev_rev L m (by omega)
    simp only [brevTurn]
    split
    · rename_i hlt
      rw [getD_swapWords _ (by omega) (by omega), ihm m (by omega), ihm _ hrm, ihm p hp]
      by_cases hpr : p = rev L m
      · subst hpr
        simp only [invm, if_true]
        have h1 : ¬ (m < m ∨ rev L m < m) := by omega
        have h2 : (rev L m < m + 1 ∨ m < m + 1) := by omega
        rw [if_neg h1, if_pos h2]
      · rw [if_neg hpr]
        by_cases hpm : p = m
        · subst hpm
          have h1 : ¬ (rev L p < p ∨ p < p) := by omega
          have h2 : (p < p + 1 ∨ rev L p < p + 1) := by omega
          simp only [invm, if_true]
          rw [if_neg h1, if_pos h2]
        · rw [if_neg hpm]
          have hrpm : rev L p ≠ m := fun h => hpr (by rw [← h, inv])
          have : (p < m ∨ rev L p < m) ↔ (p < m + 1 ∨ rev L p < m + 1) := by omega
          simp only [this]
    · rename_i hlt
      rw [ihm p hp]
      by_cases hpm : p = m
      · subst hpm
        have h2 : (p < p + 1 ∨ rev L p < p + 1) := by omega
        rw [if_pos h2]
        split
        · rfl
        · have : rev L p = p := by omega
          rw [this]
      · by_cases hrpm : rev L p = m
        · have hmp : rev L m = p := by rw [← hrpm, inv]
          have h1 : (p < m ∨ rev L p < m) := by omega
          have h2 : (p < m + 1 ∨ rev L p < m + 1) := by omega
          rw [if_pos h1, if_pos h2]
        · have : (p < m ∨ rev L p < m) ↔ (p < m + 1 ∨ rev L p < m + 1) := by omega
          simp only [this]

/-- The effect of the permutation without the loop (rule R103). -/
theorem getD_brevArray (L : Nat) (a : List Word) (ha : a.length = 2 ^ L) (p : Nat) (hp : p < 2 ^ L) :
    (brevArray L a).getD p 0 = a.getD (rev L p) 0 := by
  rw [brevArray, getD_foldl_brevTurn L _ a ha le_rfl p hp, if_pos (.inl hp)]

/-! ## Butterfly stages -/

/-- The running twiddle at offset `j` of a block: it starts at 1 and advances by `wlen` (rule R105). -/
def twiddle (wlen : Word) : Nat → Word
  | 0 => 1
  | j + 1 => mulMod (twiddle wlen j) wlen

theorem fieldElem_twiddle (wlen : Word) (j : Nat) : fieldElem (twiddle wlen j) = fieldElem wlen ^ j := by
  induction j with
  | zero => simp [twiddle]
  | succ j ih => rw [twiddle, fieldElem_mulMod, ih, pow_succ]

/-- The lower word of a butterfly. -/
def bflyLow (a : List Word) (half : Nat) (wlen : Word) (p j : Nat) : Word :=
  addMod (a.getD p 0) (mulMod (a.getD (p + half) 0) (twiddle wlen j))

/-- The upper word of a butterfly. -/
def bflyHigh (a : List Word) (half : Nat) (wlen : Word) (p j : Nat) : Word :=
  subMod (a.getD (p - half) 0) (mulMod (a.getD p 0) (twiddle wlen j))

/-- The words and the twiddle after the first `m` turns of a block. -/
theorem bflyTurn_foldl (half : Nat) (wlen : Word) (i m : Nat) (a : List Word) (hm : m ≤ half)
    (hi : i + 2 * half ≤ a.length) :
    ((List.range m).foldl (bflyTurn half wlen i) (a, 1)).2 = twiddle wlen m ∧
    ((List.range m).foldl (bflyTurn half wlen i) (a, 1)).1.length = a.length ∧
    ∀ p, ((List.range m).foldl (bflyTurn half wlen i) (a, 1)).1.getD p 0 =
      if i ≤ p ∧ p < i + m then bflyLow a half wlen p (p - i)
      else if i + half ≤ p ∧ p < i + half + m then bflyHigh a half wlen p (p - half - i)
      else a.getD p 0 := by
  induction m with
  | zero =>
    refine ⟨rfl, rfl, fun p => ?_⟩
    rw [if_neg (by omega), if_neg (by omega)]
    rfl
  | succ m ih =>
    obtain ⟨h2, hl, hg⟩ := ih (by omega)
    rw [List.range_succ, List.foldl_append, List.foldl_cons, List.foldl_nil]
    generalize (List.range m).foldl (bflyTurn half wlen i) (a, 1) = st at h2 hl hg
    refine ⟨by simp [bflyTurn, h2, twiddle], by simp [bflyTurn, hl], fun p => ?_⟩
    have e1 : st.1.getD (i + m) 0 = a.getD (i + m) 0 := by
      rw [hg, if_neg (by omega), if_neg (by omega)]
    have e2 : st.1.getD (i + m + half) 0 = a.getD (i + m + half) 0 := by
      rw [hg, if_neg (by omega), if_neg (by omega)]
    simp only [bflyTurn, butterfly, h2, e1, e2, getD_set, List.length_set, hl]
    by_cases hp2 : p = i + m + half
    · subst hp2
      rw [if_pos ⟨rfl, by omega⟩, if_neg (by omega), if_pos (by omega)]
      simp only [bflyHigh]
      congr 3 <;> omega
    · rw [if_neg (by omega)]
      by_cases hp1 : p = i + m
      · subst hp1
        rw [if_pos ⟨rfl, by omega⟩, if_pos (by omega)]
        simp only [bflyLow]
        congr 3
        omega
      · rw [if_neg (by omega), hg]
        have k1 : (i ≤ p ∧ p < i + (m + 1)) ↔ (i ≤ p ∧ p < i + m) := by omega
        have k2 : (i + half ≤ p ∧ p < i + half + (m + 1)) ↔ (i + half ≤ p ∧ p < i + half + m) := by omega
        simp only [k1, k2]

theorem length_bflyBlock (half : Nat) (wlen : Word) (a : List Word) (i : Nat)
    (hi : i + 2 * half ≤ a.length) : (bflyBlock half wlen a i).length = a.length :=
  (bflyTurn_foldl half wlen i half a le_rfl hi).2.1

theorem getD_bflyBlock (half : Nat) (wlen : Word) (a : List Word) (i : Nat)
    (hi : i + 2 * half ≤ a.length) (p : Nat) :
    (bflyBlock half wlen a i).getD p 0 =
      if i ≤ p ∧ p < i + half then bflyLow a half wlen p (p - i)
      else if i + half ≤ p ∧ p < i + half + half then bflyHigh a half wlen p (p - half - i)
      else a.getD p 0 :=
  (bflyTurn_foldl half wlen i half a le_rfl hi).2.2 p

/-- The words after the first `c` blocks of a stage. -/
theorem bflyBlock_foldl (half : Nat) (wlen : Word) (c : Nat) (a : List Word)
    (hc : c * (2 * half) ≤ a.length) :
    ((List.range c).foldl (fun a block => bflyBlock half wlen a (block * (2 * half))) a).length = a.length ∧
    ∀ p, ((List.range c).foldl (fun a block => bflyBlock half wlen a (block * (2 * half))) a).getD p 0 =
      if p < c * (2 * half) then
        if p % (2 * half) < half then bflyLow a half wlen p (p % (2 * half))
        else bflyHigh a half wlen p (p % (2 * half) - half)
      else a.getD p 0 := by
  induction c with
  | zero => simp
  | succ c ih =>
    have e : (c + 1) * (2 * half) = c * (2 * half) + 2 * half := by ring
    rw [e] at hc ⊢
    obtain ⟨hl, hg⟩ := ih (by omega)
    rw [List.range_succ, List.foldl_append, List.foldl_cons, List.foldl_nil]
    generalize (List.range c).foldl (fun a block => bflyBlock half wlen a (block * (2 * half))) a = b
      at hl hg
    have hi : c * (2 * half) + 2 * half ≤ b.length := by omega
    refine ⟨by rw [length_bflyBlock _ _ _ _ hi, hl], fun p => ?_⟩
    have same : ∀ q, c * (2 * half) ≤ q → b.getD q 0 = a.getD q 0 := fun q hq => by
      rw [hg, if_neg (by omega)]
    rw [getD_bflyBlock _ _ _ _ hi]
    by_cases hlow : p < c * (2 * half)
    · have hin : p < c * (2 * half) + 2 * half := by omega
      rw [if_neg (by omega), if_neg (by omega), hg, if_pos hlow, if_pos hin]
    · by_cases hin : p < c * (2 * half) + 2 * half
      · have hmod : p % (2 * half) = p - c * (2 * half) := by
          have : p = p - c * (2 * half) + (2 * half) * c := by rw [Nat.mul_comm (2 * half) c]; omega
          conv_lhs => rw [this, Nat.add_mul_mod_self_left]
          exact Nat.mod_eq_of_lt (by omega)
        rw [if_pos hin, hmod]
        by_cases hfirst : p < c * (2 * half) + half
        · rw [if_pos (by omega), if_pos (by omega)]
          simp only [bflyLow]
          rw [same _ (by omega), same _ (by omega)]
        · rw [if_neg (by omega), if_pos (by omega), if_neg (by omega)]
          simp only [bflyHigh]
          rw [same _ (by omega), same _ (by omega)]
          congr 3
          omega
      · rw [if_neg (by omega), if_neg (by omega), if_neg hin, same _ (by omega)]

theorem bflyStage_eq (dir : Dir) (L k : Nat) (a : List Word) (hk : k < L) :
    bflyStage dir L a (k + 1) =
      (List.range (2 ^ (L - (k + 1)))).foldl
        (fun a block => bflyBlock (2 ^ k) (rom (rootTable dir) (k + 1)) a (block * (2 * 2 ^ k))) a := by
  have h1 : 2 ^ (k + 1) = 2 * 2 ^ k := Nat.pow_succ'
  have h2 : 2 * 2 ^ k / 2 = 2 ^ k := by omega
  rw [bflyStage, Nat.pow_div hk (by decide), h1, h2]

theorem blocks_mul_len {L k : Nat} (hk : k < L) : 2 ^ (L - (k + 1)) * (2 * 2 ^ k) = 2 ^ L := by
  rw [← Nat.pow_succ', ← pow_add]
  congr 1
  omega

theorem length_bflyStage (dir : Dir) (L k : Nat) (a : List Word) (hk : k < L) (ha : a.length = 2 ^ L) :
    (bflyStage dir L a (k + 1)).length = 2 ^ L := by
  rw [bflyStage_eq _ _ _ _ hk,
    (bflyBlock_foldl _ _ _ a (by rw [blocks_mul_len hk, ha])).1, ha]

/-- One stage, word by word (rule R105): a word in the lower half of its block becomes the sum of its
butterfly, one in the upper half the difference. -/
theorem getD_bflyStage (dir : Dir) (L k : Nat) (a : List Word) (hk : k < L) (ha : a.length = 2 ^ L)
    (p : Nat) (hp : p < 2 ^ L) :
    (bflyStage dir L a (k + 1)).getD p 0 =
      if p % (2 * 2 ^ k) < 2 ^ k
      then bflyLow a (2 ^ k) (rom (rootTable dir) (k + 1)) p (p % (2 * 2 ^ k))
      else bflyHigh a (2 ^ k) (rom (rootTable dir) (k + 1)) p (p % (2 * 2 ^ k) - 2 ^ k) := by
  rw [bflyStage_eq _ _ _ _ hk,
    (bflyBlock_foldl _ _ _ a (by rw [blocks_mul_len hk, ha])).2, blocks_mul_len hk, if_pos hp]

/-- The stages up to `m`. -/
def bflyStages (dir : Dir) (L m : Nat) (a : List Word) : List Word :=
  (List.range m).foldl (fun a k => bflyStage dir L a (k + 1)) a

theorem bflyArray_eq_stages (dir : Dir) (L : Nat) (a : List Word) :
    bflyArray dir L a = bflyStages dir L L a := rfl

@[simp] theorem bflyStages_zero (dir : Dir) (L : Nat) (a : List Word) : bflyStages dir L 0 a = a := rfl

theorem bflyStages_succ (dir : Dir) (L m : Nat) (a : List Word) :
    bflyStages dir L (m + 1) a = bflyStage dir L (bflyStages dir L m a) (m + 1) := by
  simp [bflyStages, List.range_succ]

theorem length_bflyStages (dir : Dir) (L m : Nat) (a : List Word) (hm : m ≤ L) (ha : a.length = 2 ^ L) :
    (bflyStages dir L m a).length = 2 ^ L := by
  induction m with
  | zero => exact ha
  | succ m ih => rw [bflyStages_succ, length_bflyStage _ _ _ _ (by omega) (ih (by omega))]

theorem length_bflyArray (dir : Dir) (L : Nat) (a : List Word) (ha : a.length = 2 ^ L) :
    (bflyArray dir L a).length = 2 ^ L := length_bflyStages dir L L a le_rfl ha

@[simp] theorem length_scaleArray (L : Nat) (a : List Word) : (scaleArray L a).length = a.length := by
  simp [scaleArray]

theorem length_nttArray (dir : Dir) (L : Nat) (a : List Word) (ha : a.length = 2 ^ L) :
    (nttArray dir L a).length = 2 ^ L := by
  cases dir
  · exact length_bflyArray _ _ _ (by rw [length_brevArray, ha])
  · simp only [nttArray, length_scaleArray]
    exact length_bflyArray _ _ _ (by rw [length_brevArray, ha])

theorem getD_scaleArray (L : Nat) (a : List Word) (p : Nat) (hp : p < a.length) :
    (scaleArray L a).getD p 0 = mulMod (a.getD p 0) (rom 2 L) := by
  simp [scaleArray, List.getD_eq_getElem?_getD, hp]

@[simp] theorem length_pmulArray (a b : List Word) : (pmulArray a b).length = min a.length b.length := by
  simp [pmulArray]

theorem getD_pmulArray (a b : List Word) (p : Nat) (ha : p < a.length) (hb : p < b.length) :
    (pmulArray a b).getD p 0 = mulMod (a.getD p 0) (b.getD p 0) := by
  simp [pmulArray, List.getD_eq_getElem?_getD, ha, hb]

/-! ## Field elements stay field elements (rule R26) -/

theorem brevArray_lt (L : Nat) (a : List Word) (ha : a.length = 2 ^ L)
    (h : ∀ p, p < 2 ^ L → (a.getD p 0).toNat < MOD) (p : Nat) (hp : p < 2 ^ L) :
    ((brevArray L a).getD p 0).toNat < MOD := by
  rw [getD_brevArray L a ha p hp]
  exact h _ (rev_lt L p)

theorem bflyStages_lt (dir : Dir) (L m : Nat) (a : List Word) (hm : m ≤ L) (ha : a.length = 2 ^ L)
    (h : ∀ p, p < 2 ^ L → (a.getD p 0).toNat < MOD) (p : Nat) (hp : p < 2 ^ L) :
    ((bflyStages dir L m a).getD p 0).toNat < MOD := by
  cases m with
  | zero => exact h p hp
  | succ m =>
    rw [bflyStages_succ, getD_bflyStage _ _ _ _ (by omega) (length_bflyStages _ _ _ _ (by omega) ha) p hp]
    split
    · exact addMod_lt _ _
    · exact subMod_lt _ _

theorem bflyArray_lt (dir : Dir) (L : Nat) (a : List Word) (ha : a.length = 2 ^ L)
    (h : ∀ p, p < 2 ^ L → (a.getD p 0).toNat < MOD) (p : Nat) (hp : p < 2 ^ L) :
    ((bflyArray dir L a).getD p 0).toNat < MOD := bflyStages_lt dir L L a le_rfl ha h p hp

theorem nttArray_lt (dir : Dir) (L : Nat) (a : List Word) (ha : a.length = 2 ^ L)
    (h : ∀ p, p < 2 ^ L → (a.getD p 0).toNat < MOD) (p : Nat) (hp : p < 2 ^ L) :
    ((nttArray dir L a).getD p 0).toNat < MOD := by
  have hb : (brevArray L a).length = 2 ^ L := by rw [length_brevArray, ha]
  cases dir
  · exact bflyArray_lt _ _ _ hb (brevArray_lt L a ha h) p hp
  · simp only [nttArray]
    rw [getD_scaleArray _ _ _ (by rw [length_bflyArray _ _ _ hb]; exact hp)]
    exact mulMod_lt _ _

end Sys2Proof.Machine
end

