-- ==== Sys2Proof/Laws/Dft.lean ====
section
/-! SUPPORT. What the loops of rule R105 compute, in closed form in the field: after `k` stages every
block of `2^k` words holds the transform of its bit-reversed words (the argument of rule R108). -/

namespace Sys2Proof.Machine

theorem sum_range_even_odd {M : Type*} [AddCommMonoid M] (f : Nat → M) (n : Nat) :
    ∑ t ∈ Finset.range (2 * n), f t = ∑ u ∈ Finset.range n, (f (2 * u) + f (2 * u + 1)) := by
  induction n with
  | zero => rfl
  | succ n ih =>
    rw [Nat.mul_succ, Finset.sum_range_succ, Finset.sum_range_succ, ih, Finset.sum_range_succ, add_assoc]

theorem rev_even (k u : Nat) : rev (k + 1) (2 * u) = rev k u := by simp [rev]

theorem rev_odd (k u : Nat) : rev (k + 1) (2 * u + 1) = 2 ^ k + rev k u := by
  simp only [rev]
  rw [show (2 * u + 1) % 2 = 1 by omega, show (2 * u + 1) / 2 = u by omega, one_mul]

/-- The upper half of block `b` lies in the array if its lower half does. -/
theorem upper_half_lt {L k b m : Nat} (hk : k < L) (hm : m < 2 ^ k) (hb : b * (2 * 2 ^ k) + m < 2 ^ L) :
    (2 * b + 1) * 2 ^ k + m < 2 ^ L := by
  have hc : 2 ^ L = (2 * 2 ^ k) * 2 ^ (L - (k + 1)) := by rw [mul_comm, blocks_mul_len hk]
  rw [hc] at hb ⊢
  have hbc : b < 2 ^ (L - (k + 1)) := by
    by_contra hcon
    have := Nat.mul_le_mul_left (2 * 2 ^ k) (Nat.not_lt.1 hcon)
    nlinarith
  have := Nat.mul_le_mul_left (2 * 2 ^ k) (Nat.succ_le_of_lt hbc)
  nlinarith

/-- After `k` stages, word `m` of block `b`. -/
theorem fieldElem_bflyStages (dir : Dir) (L : Nat) (a : List Word) (ha : a.length = 2 ^ L) (hL : L ≤ 23)
    (k : Nat) (hk : k ≤ L) (b m : Nat) (hm : m < 2 ^ k) (hb : b * 2 ^ k + m < 2 ^ L) :
    fieldElem ((bflyStages dir L k a).getD (b * 2 ^ k + m) 0) =
      ∑ t ∈ Finset.range (2 ^ k), fieldElem (a.getD (b * 2 ^ k + rev k t) 0) * root dir k ^ (m * t) := by
  induction k generalizing b m with
  | zero =>
    have : m = 0 := by simpa using hm
    subst this
    simp [rev]
  | succ k ih =>
    have hk' : k < L := hk
    have hmod : (b * 2 ^ (k + 1) + m) % (2 * 2 ^ k) = m := by
      rw [← Nat.pow_succ', mul_comm b, Nat.mul_add_mod, Nat.mod_eq_of_lt hm]
    rw [bflyStages_succ, getD_bflyStage _ _ _ _ hk' (length_bflyStages _ _ _ _ hk'.le ha) _ hb, hmod]
    have hp2 : 2 ^ (k + 1) = 2 * 2 ^ k := Nat.pow_succ'
    have sq := root_sq dir k (by omega)
    have half := root_pow_half dir k (by omega)
    have full := root_pow_full dir k (by omega)
    have hw : fieldElem (rom (rootTable dir) (k + 1)) = root dir (k + 1) := rfl
    rw [hp2] at hb hm ⊢
    rw [sum_range_even_odd]
    simp only [rev_even, rev_odd]
    split
    · rename_i hlt
      rw [bflyLow, fieldElem_addMod, fieldElem_mulMod, fieldElem_twiddle, hw,
        show b * (2 * 2 ^ k) + m = (2 * b) * 2 ^ k + m by ring,
        show (2 * b) * 2 ^ k + m + 2 ^ k = (2 * b + 1) * 2 ^ k + m by ring,
        ih hk'.le _ _ hlt (by nlinarith), ih hk'.le _ _ hlt (upper_half_lt hk' hlt hb),
        Finset.sum_mul, ← Finset.sum_add_distrib]
      apply Finset.sum_congr rfl
      intro u _
      rw [← sq, show b * (2 * 2 ^ k) + rev k u = 2 * b * 2 ^ k + rev k u by ring,
        show b * (2 * 2 ^ k) + (2 ^ k + rev k u) = (2 * b + 1) * 2 ^ k + rev k u by ring,
        ← pow_mul, show m * (2 * u) = 2 * (m * u) by ring, show m * (2 * u + 1) = 2 * (m * u) + m by ring,
        pow_add]
      ring
    · rename_i hge
      obtain ⟨m', rfl⟩ : ∃ m', m = 2 ^ k + m' := ⟨m - 2 ^ k, by omega⟩
      have hm' : m' < 2 ^ k := by omega
      have low : b * (2 * 2 ^ k) + (2 ^ k + m') - 2 ^ k = (2 * b) * 2 ^ k + m' := by
        rw [show b * (2 * 2 ^ k) + (2 ^ k + m') = (2 * b) * 2 ^ k + m' + 2 ^ k by ring, Nat.add_sub_cancel]
      rw [bflyHigh, fieldElem_subMod, fieldElem_mulMod, fieldElem_twiddle, hw, low,
        show b * (2 * 2 ^ k) + (2 ^ k + m') = (2 * b + 1) * 2 ^ k + m' by ring, Nat.add_sub_cancel_left,
        ih hk'.le _ _ hm' (by nlinarith), ih hk'.le _ _ hm' (by nlinarith), Finset.sum_mul,
        ← Finset.sum_sub_distrib]
      apply Finset.sum_congr rfl
      intro u _
      have e1 : root dir (k + 1) ^ ((2 ^ k + m') * (2 * u)) = root dir k ^ (m' * u) := by
        rw [show (2 ^ k + m') * (2 * u) = 2 * (2 ^ k * u + m' * u) by ring, pow_mul, sq, pow_add,
          pow_mul _ (2 ^ k), full, one_pow, one_mul]
      have e2 : root dir (k + 1) ^ ((2 ^ k + m') * (2 * u + 1)) =
          -(root dir k ^ (m' * u) * root dir (k + 1) ^ m') := by
        rw [show (2 ^ k + m') * (2 * u + 1) = (2 ^ k + m') * (2 * u) + (2 ^ k + m') by ring, pow_add, e1,
          pow_add, half]
        ring
      rw [show b * (2 * 2 ^ k) + rev k u = 2 * b * 2 ^ k + rev k u by ring,
        show b * (2 * 2 ^ k) + (2 ^ k + rev k u) = (2 * b + 1) * 2 ^ k + rev k u by ring, e1, e2]
      ring

/-- All stages: the transform of the bit-reversed rearrangement. -/
theorem fieldElem_bflyArray (dir : Dir) (L : Nat) (a : List Word) (ha : a.length = 2 ^ L) (hL : L ≤ 23)
    (m : Nat) (hm : m < 2 ^ L) :
    fieldElem ((bflyArray dir L a).getD m 0) =
      ∑ t ∈ Finset.range (2 ^ L), fieldElem (a.getD (rev L t) 0) * root dir L ^ (m * t) := by
  have := fieldElem_bflyStages dir L a ha hL L le_rfl 0 m hm (by simpa using hm)
  simpa [bflyArray_eq_stages] using this

/-- Permutation and stages: the transform. -/
theorem fieldElem_bflyArray_brevArray (dir : Dir) (L : Nat) (a : List Word) (ha : a.length = 2 ^ L)
    (hL : L ≤ 23) (m : Nat) (hm : m < 2 ^ L) :
    fieldElem ((bflyArray dir L (brevArray L a)).getD m 0) =
      ∑ t ∈ Finset.range (2 ^ L), fieldElem (a.getD t 0) * root dir L ^ (m * t) := by
  rw [fieldElem_bflyArray dir L _ (by simpa using ha) hL m hm]
  apply Finset.sum_congr rfl
  intro t ht
  rw [getD_brevArray _ _ ha _ (rev_lt _ _), rev_rev _ _ (Finset.mem_range.1 ht)]

end Sys2Proof.Machine
end

