-- ==== Sys2Proof/Laws/Digits.lean ====
section
/-! SUPPORT. Decimal strings and canonical digit lists: parsing a decimal string (rule R137) and rendering
a canonical digit list (rules R123, R141) are inverse to each other. -/

namespace Sys2Proof.Machine

/-- A result digit array (rule R123): digits, at least one, no leading zero but a single 0. -/
def CanonicalDigits (ws : List Word) : Prop :=
  ws ≠ [] ∧ (∀ w ∈ ws, w.toNat ≤ 9) ∧ (ws.length = 1 ∨ ws.getD (ws.length - 1) 0 ≠ 0)

theorem digitChar_eq (n : Nat) (h : n < 10) : Nat.digitChar n = Char.ofNat (48 + n) := by
  interval_cases n <;> rfl

theorem digitOfChar_digitChar (n : Nat) (h : n < 10) : digitOfChar (Nat.digitChar n) = some (BitVec.ofNat 32 n) := by
  interval_cases n <;> rfl

theorem getD_last_cons (w : Word) (ws : List Word) (h : ws ≠ []) :
    (w :: ws).getD ((w :: ws).length - 1) 0 = ws.getD (ws.length - 1) 0 := by
  have hl : 0 < ws.length := List.length_pos_iff.2 h
  rw [List.length_cons, Nat.add_sub_cancel]
  obtain ⟨k, hk⟩ : ∃ k, ws.length = k + 1 := ⟨ws.length - 1, by omega⟩
  rw [hk]
  rfl

theorem CanonicalDigits.tail {w : Word} {ws : List Word} (h : CanonicalDigits (w :: ws)) (hw : ws ≠ []) :
    CanonicalDigits ws ∧ ws.getD (ws.length - 1) 0 ≠ 0 := by
  have h2 : ws.getD (ws.length - 1) 0 ≠ 0 := by
    rcases h.2.2 with h2 | h2
    · simp at h2; exact absurd h2 hw
    · rw [← getD_last_cons w ws hw]; exact h2
  exact ⟨⟨hw, fun v hv => h.2.1 v (by simp [hv]), .inr h2⟩, h2⟩

theorem one_le_listValue {ws : List Word} (h : ws.getD (ws.length - 1) 0 ≠ 0) : 1 ≤ listValue ws := by
  induction ws with
  | nil => exact absurd rfl h
  | cons w ws ih =>
    by_cases hw : ws = []
    · subst hw
      have h : w ≠ 0 := h
      have : w.toNat ≠ 0 := fun e => h (BitVec.eq_of_toNat_eq (by simpa using e))
      simp only [listValue]
      omega
    · rw [getD_last_cons w ws hw] at h
      have := ih h
      simp only [listValue]
      omega

/-- Rendering a canonical digit list gives the decimal string of the number it denotes. -/
theorem render_eq_toDigits {ws : List Word} (h : CanonicalDigits ws) :
    render ws = Nat.toDigits 10 (listValue ws) := by
  induction ws with
  | nil => exact absurd rfl h.1
  | cons w ws ih =>
    have hw9 := h.2.1 w (by simp)
    by_cases hw : ws = []
    · subst hw
      simp only [listValue, render, Nat.mul_zero, Nat.add_zero]
      rw [Nat.toDigits_of_lt_base (by omega), digitChar_eq _ (by omega)]
      rfl
    · obtain ⟨hc, h2⟩ := h.tail hw
      have hp := one_le_listValue h2
      have e : render (w :: ws) = render ws ++ [Char.ofNat (48 + w.toNat)] := by simp [render]
      rw [e, ih hc, listValue, Nat.toDigits_of_base_le (n := w.toNat + 10 * listValue ws) (by decide) (by omega),
        show (w.toNat + 10 * listValue ws) / 10 = listValue ws by omega,
        show (w.toNat + 10 * listValue ws) % 10 = w.toNat by omega, digitChar_eq _ (by omega)]

theorem mapM_digitOfChar_toDigits (a : Nat) :
    ∃ ds, (Nat.toDigits 10 a).reverse.mapM digitOfChar = some ds ∧ ds.length = (Nat.toDigits 10 a).length ∧
      (∀ w ∈ ds, w.toNat ≤ 9) ∧ listValue ds = a := by
  induction a using Nat.strongRecOn with
  | _ a ih =>
    by_cases ha : a < 10
    · refine ⟨[BitVec.ofNat 32 a], ?_, ?_, ?_, ?_⟩
      · rw [Nat.toDigits_of_lt_base ha]; simp [digitOfChar_digitChar a ha]
      · rw [Nat.toDigits_of_lt_base ha]; rfl
      · simp; omega
      · simp [listValue]; omega
    · obtain ⟨ds, h1, h2, h3, h4⟩ := ih (a / 10) (by omega)
      have e : Nat.toDigits 10 a = Nat.toDigits 10 (a / 10) ++ [Nat.digitChar (a % 10)] :=
        Nat.toDigits_of_base_le (by decide) (by omega)
      refine ⟨BitVec.ofNat 32 (a % 10) :: ds, ?_, ?_, ?_, ?_⟩
      · rw [e, List.reverse_append, List.reverse_singleton, List.singleton_append, List.mapM_cons,
          digitOfChar_digitChar _ (by omega), h1]
        rfl
      · rw [e]; simp [h2]
      · intro w hw
        rcases List.mem_cons.1 hw with rfl | hw
        · rw [toNat_digit]; omega
        · exact h3 w hw
      · rw [listValue, toNat_digit, h4]; omega

/-- The decimal string of a number parses to digits that denote the number. -/
theorem parse_toDigits (a : Nat) :
    ∃ ds, parse (Nat.toDigits 10 a) = some ds ∧ ds.length = (Nat.toDigits 10 a).length ∧
      (∀ w ∈ ds, w.toNat ≤ 9) ∧ listValue ds = a := by
  obtain ⟨ds, h1, h2, h3, h4⟩ := mapM_digitOfChar_toDigits a
  exact ⟨ds, by rw [parse, if_neg (by simp), h1], h2, h3, h4⟩

end Sys2Proof.Machine
end

