-- ==== Sys2Proof/Laws/Memory.lean ====
section
/-! SUPPORT. The laws of a bank's memory: read after write, the canonical form, and that equal contents
are equal data. -/

namespace Sys2Proof.Machine

/-! ## The cell list -/

theorem lookup_cons_if (j k : Nat) (w : Word) (cells : List (Nat × Word)) :
    ((k, w) :: cells).lookup j = if j = k then some w else cells.lookup j := by
  by_cases h : j = k
  · simp [h]
  · simp [List.lookup_cons, beq_eq_false_iff_ne.2 h, h]

theorem lookup_insertCell (i j : Nat) (v : Word) (cells : List (Nat × Word)) :
    (insertCell i v cells).lookup j = if j = i then some v else cells.lookup j := by
  induction cells with
  | nil => simp [insertCell, lookup_cons_if]
  | cons c rest ih =>
    obtain ⟨k, w⟩ := c
    simp only [insertCell]
    split
    · simp only [lookup_cons_if]
    · split
      · rename_i hik
        subst hik
        simp only [lookup_cons_if]
        split <;> rfl
      · rename_i hik
        simp only [lookup_cons_if, ih]
        by_cases hk : j = k
        · simp [hk, Ne.symm hik]
        · simp [hk]

theorem lookup_removeCell (i j : Nat) (cells : List (Nat × Word)) :
    (removeCell i cells).lookup j = if j = i then none else cells.lookup j := by
  induction cells with
  | nil => simp [removeCell]
  | cons c rest ih =>
    obtain ⟨k, w⟩ := c
    have hcons : removeCell i ((k, w) :: rest) = if k = i then removeCell i rest
        else (k, w) :: removeCell i rest := by
      by_cases hk : k = i <;> simp [removeCell, hk]
    rw [hcons]
    by_cases hk : k = i
    · simp only [hk, if_true, ih, lookup_cons_if]
      split <;> rfl
    · simp only [hk, if_false, lookup_cons_if, ih]
      by_cases hj : j = k
      · simp [hj, hk]
      · simp [hj]

theorem mem_insertCell {i : Nat} {v : Word} {cells : List (Nat × Word)} {c : Nat × Word}
    (h : c ∈ insertCell i v cells) : c = (i, v) ∨ c ∈ cells := by
  induction cells with
  | nil => simpa [insertCell] using h
  | cons d rest ih =>
    obtain ⟨k, w⟩ := d
    simp only [insertCell] at h
    split at h
    · simpa using h
    · split at h
      · rcases List.mem_cons.1 h with h | h
        · exact .inl h
        · exact .inr (List.mem_cons_of_mem _ h)
      · rcases List.mem_cons.1 h with h | h
        · exact .inr (h ▸ List.mem_cons_self)
        · exact (ih h).imp_right (List.mem_cons_of_mem _)

theorem insertCell_rising (i : Nat) (v : Word) (cells : List (Nat × Word))
    (h : cells.Pairwise fun c d => c.1 < d.1) : (insertCell i v cells).Pairwise fun c d => c.1 < d.1 := by
  induction cells with
  | nil => simp [insertCell]
  | cons d rest ih =>
    obtain ⟨k, w⟩ := d
    obtain ⟨hk, hrest⟩ := List.pairwise_cons.1 h
    simp only [insertCell]
    split
    · rename_i hik
      refine List.pairwise_cons.2 ⟨fun c hc => ?_, h⟩
      rcases List.mem_cons.1 hc with rfl | hc
      · exact hik
      · exact lt_trans hik (hk c hc)
    · split
      · rename_i hik
        subst hik
        exact List.pairwise_cons.2 ⟨fun c hc => hk c hc, hrest⟩
      · refine List.pairwise_cons.2 ⟨fun c hc => ?_, ih hrest⟩
        rcases mem_insertCell hc with rfl | hc
        · show k < i
          omega
        · exact hk c hc

theorem lookup_eq_some_of_mem {cells : List (Nat × Word)} (h : cells.Pairwise fun c d => c.1 < d.1)
    {i : Nat} {v : Word} (hm : (i, v) ∈ cells) : cells.lookup i = some v := by
  induction cells with
  | nil => simp at hm
  | cons d rest ih =>
    obtain ⟨k, w⟩ := d
    obtain ⟨hk, hrest⟩ := List.pairwise_cons.1 h
    rcases List.mem_cons.1 hm with hm | hm
    · cases hm; simp
    · have : k < i := hk _ hm
      rw [lookup_cons_if, if_neg (Nat.ne_of_gt this), ih hrest hm]

theorem mem_of_lookup_eq_some {cells : List (Nat × Word)} {i : Nat} {v : Word}
    (h : cells.lookup i = some v) : (i, v) ∈ cells := by
  induction cells with
  | nil => simp at h
  | cons d rest ih =>
    obtain ⟨k, w⟩ := d
    by_cases hk : i = k
    · subst hk
      simp only [List.lookup_cons_self, Option.some.injEq] at h
      simp [h]
    · simp only [List.lookup_cons, beq_eq_false_iff_ne.2 hk] at h
      exact List.mem_cons_of_mem _ (ih h)

/-! ## Reading and writing -/

@[simp] theorem Memory.write_fill (m : Memory) (i : Nat) (v : Word) : (m.write i v).fill = m.fill := by
  simp only [Memory.write]; split <;> rfl

@[simp] theorem Memory.write_unlisted (m : Memory) (i j : Nat) (v : Word) :
    (m.write i v).unlisted j = m.unlisted j := by
  simp [Memory.unlisted]

/-- A read after a write gives the word written at that index and the old word at every other. -/
theorem Memory.read_write (m : Memory) (i j : Nat) (v : Word) :
    (m.write i v).read j = if j = i then v else m.read j := by
  by_cases hv : v = m.unlisted i
  · have hw : m.write i v = { m with cells := removeCell i m.cells } := if_pos hv
    rw [hw]
    simp only [Memory.read, lookup_removeCell, Memory.unlisted] at hv ⊢
    by_cases hj : j = i
    · subst hj; simp [hv]
    · simp [hj]
  · have hw : m.write i v = { m with cells := insertCell i v m.cells } := if_neg hv
    rw [hw]
    simp only [Memory.read, lookup_insertCell, Memory.unlisted]
    by_cases hj : j = i <;> simp [hj]

@[simp] theorem Memory.read_write_self (m : Memory) (i : Nat) (v : Word) : (m.write i v).read i = v := by
  simp [Memory.read_write]

theorem Memory.read_write_ne (m : Memory) {i j : Nat} (v : Word) (h : j ≠ i) :
    (m.write i v).read j = m.read j := by
  simp [Memory.read_write, h]

/-- A write inside the bank keeps the canonical form. -/
theorem Memory.write_wf {m : Memory} (hm : m.wf) {i : Nat} (hi : i < DEPTH) (v : Word) :
    (m.write i v).wf := by
  obtain ⟨hr, hc⟩ := hm
  by_cases hv : v = m.unlisted i
  · have hw : m.write i v = { m with cells := removeCell i m.cells } := if_pos hv
    rw [hw]
    exact ⟨hr.filter _, fun c h => hc c (List.mem_of_mem_filter h)⟩
  · have hw : m.write i v = { m with cells := insertCell i v m.cells } := if_neg hv
    rw [hw]
    refine ⟨insertCell_rising i v _ hr, fun c h => ?_⟩
    rcases mem_insertCell h with rfl | h
    · exact ⟨hi, hv⟩
    · exact hc c h

/-- The word at index `i` is listed as `v` exactly when it reads `v` and `v` is not what it reads unlisted. -/
theorem Memory.mem_cells_iff {m : Memory} (hm : m.wf) (i : Nat) (v : Word) :
    (i, v) ∈ m.cells ↔ m.read i = v ∧ v ≠ m.unlisted i := by
  constructor
  · intro h
    exact ⟨by simp [Memory.read, lookup_eq_some_of_mem hm.1 h], (hm.2 _ h).2⟩
  · rintro ⟨h, hv⟩
    apply mem_of_lookup_eq_some
    cases hl : m.cells.lookup i with
    | none => simp [Memory.read, hl] at h; exact absurd h.symm hv
    | some w => simp [Memory.read, hl] at h; rw [h]

/-- Equal contents are equal data. -/
theorem Memory.ext_read {m m' : Memory} (hm : m.wf) (hm' : m'.wf) (hf : m.fill = m'.fill)
    (h : ∀ i, m.read i = m'.read i) : m = m' := by
  have hu : ∀ i, m.unlisted i = m'.unlisted i := by intro i; simp [Memory.unlisted, hf]
  have hmem : ∀ c, c ∈ m.cells ↔ c ∈ m'.cells := by
    rintro ⟨i, v⟩
    rw [Memory.mem_cells_iff hm, Memory.mem_cells_iff hm', h, hu]
  have nodup : ∀ {l : List (Nat × Word)}, (l.Pairwise fun c d => c.1 < d.1) → l.Nodup := fun hl =>
    hl.imp (fun {a b} hab e => absurd hab (by rw [e]; exact lt_irrefl _))
  have hp : m.cells.Perm m'.cells := (List.perm_ext_iff_of_nodup (nodup hm.1) (nodup hm'.1)).2 hmem
  have hc : m.cells = m'.cells :=
    hp.eq_of_pairwise (fun a b _ _ hab hba => absurd hab (lt_asymm hba)) hm.1 hm'.1
  cases m; cases m'; simp_all

/-! ## Arrays -/

@[simp] theorem Memory.length_readArray (m : Memory) (n : Nat) : (m.readArray n).length = n := by
  simp [Memory.readArray]

@[simp] theorem Memory.getElem_readArray (m : Memory) (n i : Nat) (h : i < (m.readArray n).length) :
    (m.readArray n)[i] = m.read i := by
  simp [Memory.readArray]

theorem Memory.getD_readArray (m : Memory) {n i : Nat} (h : i < n) (d : Word) :
    (m.readArray n).getD i d = m.read i := by
  simp [List.getD_eq_getElem?_getD, Memory.readArray, h]

@[simp] theorem Memory.writeArray_fill (m : Memory) (i : Nat) (ws : List Word) :
    (m.writeArray i ws).fill = m.fill := by
  induction ws generalizing m i with
  | nil => rfl
  | cons w ws ih => simp [Memory.writeArray, ih]

/-- The words written stand at their indices, and every other word is as before. -/
theorem Memory.read_writeArray (m : Memory) (i j : Nat) (ws : List Word) :
    (m.writeArray i ws).read j = if i ≤ j ∧ j < i + ws.length then ws.getD (j - i) 0 else m.read j := by
  induction ws generalizing m i with
  | nil => simp [Memory.writeArray]
  | cons w ws ih =>
    simp only [Memory.writeArray, ih, Memory.read_write, List.length_cons]
    by_cases hji : j = i
    · subst hji; simp
    · by_cases h1 : i + 1 ≤ j ∧ j < i + 1 + ws.length
      · have h2 : i ≤ j ∧ j < i + (ws.length + 1) := by omega
        obtain ⟨k, hk⟩ : ∃ k, j - i = k + 1 := ⟨j - i - 1, by omega⟩
        have hk' : j - (i + 1) = k := by omega
        simp only [h1, h2, and_self, if_true, hk, hk', List.getD_cons_succ]
      · have h2 : ¬ (i ≤ j ∧ j < i + (ws.length + 1)) := by omega
        rw [if_neg h1, if_neg h2, if_neg hji]

theorem Memory.writeArray_wf {m : Memory} (hm : m.wf) {i : Nat} (ws : List Word)
    (h : i + ws.length ≤ DEPTH) : (m.writeArray i ws).wf := by
  induction ws generalizing m i with
  | nil => exact hm
  | cons w ws ih =>
    simp only [List.length_cons] at h
    exact ih (Memory.write_wf hm (by omega) w) (by omega)

/-- A bank in which nothing is listed is in canonical form, whatever its unlisted words read as. -/
theorem Memory.wf_of_cells_nil {m : Memory} (h : m.cells = []) : m.wf := by
  simp [Memory.wf, h]

/-! ## Writing twice, reading back -/

theorem insertCell_insertCell (i : Nat) (v : Word) (cells : List (Nat × Word)) :
    insertCell i v (insertCell i v cells) = insertCell i v cells := by
  induction cells with
  | nil => simp [insertCell]
  | cons c cs ih =>
    obtain ⟨j, w⟩ := c
    by_cases h1 : i < j
    · simp [insertCell, h1]
    · by_cases h2 : i = j
      · subst h2; simp [insertCell]
      · simp [insertCell, h1, h2, ih]

/-- The same write twice is one write. -/
theorem Memory.write_write_self (m : Memory) (i : Nat) (v : Word) : (m.write i v).write i v = m.write i v := by
  by_cases h : v = m.unlisted i
  · have e : m.write i v = { m with cells := removeCell i m.cells } := if_pos h
    rw [Memory.write, if_pos (by rw [Memory.write_unlisted]; exact h), e]
    simp [removeCell]
  · have e : m.write i v = { m with cells := insertCell i v m.cells } := if_neg h
    rw [Memory.write, if_neg (by rw [Memory.write_unlisted]; exact h), e]
    simp [insertCell_insertCell]

theorem Memory.readArray_writeArray (m : Memory) (ds : List Word) :
    (m.writeArray 0 ds).readArray ds.length = ds := by
  apply List.ext_getElem (by simp)
  intro i h1 h2
  simp [Memory.read_writeArray, h2]

end Sys2Proof.Machine
end

