-- ==== Sys2Proof/Laws/State.lean ====
section
/-! SUPPORT. One lemma per field per update of the state: later proofs unfold no record update. -/

namespace Sys2Proof.Machine

/-! ## `setX` -/

theorem State.getX_setX (s : State) (r q : Reg) (v : Word) :
    (s.setX r v).getX q = if q = r then v else s.getX q := by
  simp only [State.getX, State.setX, Fin.getElem_fin, Vector.getElem_set]
  by_cases h : q = r
  · simp [h]
  · have : (r : Nat) ≠ q := fun e => h (Fin.ext e.symm)
    simp [h, this]

@[simp] theorem State.getX_setX_self (s : State) (r : Reg) (v : Word) : (s.setX r v).getX r = v := by
  simp [State.getX_setX]

theorem State.getX_setX_ne (s : State) {r q : Reg} (v : Word) (h : q ≠ r) :
    (s.setX r v).getX q = s.getX q := by
  simp [State.getX_setX, h]

@[simp] theorem State.setX_logn (s : State) (r : Reg) (v : Word) : (s.setX r v).logn = s.logn := rfl
@[simp] theorem State.setX_len (s : State) (r : Reg) (v : Word) : (s.setX r v).len = s.len := rfl
@[simp] theorem State.setX_fault (s : State) (r : Reg) (v : Word) : (s.setX r v).fault = s.fault := rfl
@[simp] theorem State.setX_bankA (s : State) (r : Reg) (v : Word) : (s.setX r v).bankA = s.bankA := rfl
@[simp] theorem State.setX_bankB (s : State) (r : Reg) (v : Word) : (s.setX r v).bankB = s.bankB := rfl
@[simp] theorem State.setX_draws (s : State) (r : Reg) (v : Word) : (s.setX r v).draws = s.draws := rfl
@[simp] theorem State.setX_pending (s : State) (r : Reg) (v : Word) : (s.setX r v).pending = s.pending := rfl
@[simp] theorem State.setX_replies (s : State) (r : Reg) (v : Word) : (s.setX r v).replies = s.replies := rfl
@[simp] theorem State.setX_bank (s : State) (r : Reg) (v : Word) (b : BankId) :
    (s.setX r v).bank b = s.bank b := by cases b <;> rfl
@[simp] theorem State.setX_word (s : State) (r : Reg) (v : Word) (b : BankId) (i : Nat) :
    (s.setX r v).word b i = s.word b i := by simp [State.word]

/-! ## `setBank` -/

@[simp] theorem State.bank_setBank_self (s : State) (b : BankId) (m : Memory) : (s.setBank b m).bank b = m := by
  cases b <;> rfl

theorem State.bank_setBank_ne (s : State) {b c : BankId} (m : Memory) (h : c ≠ b) :
    (s.setBank b m).bank c = s.bank c := by
  cases b <;> cases c <;> first | rfl | exact absurd rfl h

@[simp] theorem State.setBank_getX (s : State) (b : BankId) (m : Memory) (r : Reg) :
    (s.setBank b m).getX r = s.getX r := by cases b <;> rfl
@[simp] theorem State.setBank_x (s : State) (b : BankId) (m : Memory) : (s.setBank b m).x = s.x := by
  cases b <;> rfl
@[simp] theorem State.setBank_logn (s : State) (b : BankId) (m : Memory) : (s.setBank b m).logn = s.logn := by
  cases b <;> rfl
@[simp] theorem State.setBank_len (s : State) (b : BankId) (m : Memory) : (s.setBank b m).len = s.len := by
  cases b <;> rfl
@[simp] theorem State.setBank_fault (s : State) (b : BankId) (m : Memory) : (s.setBank b m).fault = s.fault := by
  cases b <;> rfl
@[simp] theorem State.setBank_draws (s : State) (b : BankId) (m : Memory) : (s.setBank b m).draws = s.draws := by
  cases b <;> rfl
@[simp] theorem State.setBank_pending (s : State) (b : BankId) (m : Memory) :
    (s.setBank b m).pending = s.pending := by cases b <;> rfl
@[simp] theorem State.setBank_replies (s : State) (b : BankId) (m : Memory) :
    (s.setBank b m).replies = s.replies := by cases b <;> rfl

/-! ## `setWord` and `setArray` -/

@[simp] theorem State.setWord_getX (s : State) (b : BankId) (i : Nat) (v : Word) (r : Reg) :
    (s.setWord b i v).getX r = s.getX r := by simp [State.setWord]
@[simp] theorem State.setWord_logn (s : State) (b : BankId) (i : Nat) (v : Word) :
    (s.setWord b i v).logn = s.logn := by simp [State.setWord]
@[simp] theorem State.setWord_len (s : State) (b : BankId) (i : Nat) (v : Word) :
    (s.setWord b i v).len = s.len := by simp [State.setWord]
@[simp] theorem State.setWord_fault (s : State) (b : BankId) (i : Nat) (v : Word) :
    (s.setWord b i v).fault = s.fault := by simp [State.setWord]
@[simp] theorem State.setWord_draws (s : State) (b : BankId) (i : Nat) (v : Word) :
    (s.setWord b i v).draws = s.draws := by simp [State.setWord]
@[simp] theorem State.setWord_pending (s : State) (b : BankId) (i : Nat) (v : Word) :
    (s.setWord b i v).pending = s.pending := by simp [State.setWord]
@[simp] theorem State.setWord_replies (s : State) (b : BankId) (i : Nat) (v : Word) :
    (s.setWord b i v).replies = s.replies := by simp [State.setWord]

@[simp] theorem State.setArray_getX (s : State) (b : BankId) (ws : List Word) (r : Reg) :
    (s.setArray b ws).getX r = s.getX r := by simp [State.setArray]
@[simp] theorem State.setArray_logn (s : State) (b : BankId) (ws : List Word) :
    (s.setArray b ws).logn = s.logn := by simp [State.setArray]
@[simp] theorem State.setArray_len (s : State) (b : BankId) (ws : List Word) :
    (s.setArray b ws).len = s.len := by simp [State.setArray]
@[simp] theorem State.setArray_fault (s : State) (b : BankId) (ws : List Word) :
    (s.setArray b ws).fault = s.fault := by simp [State.setArray]
@[simp] theorem State.setArray_draws (s : State) (b : BankId) (ws : List Word) :
    (s.setArray b ws).draws = s.draws := by simp [State.setArray]
@[simp] theorem State.setArray_pending (s : State) (b : BankId) (ws : List Word) :
    (s.setArray b ws).pending = s.pending := by simp [State.setArray]
@[simp] theorem State.setArray_replies (s : State) (b : BankId) (ws : List Word) :
    (s.setArray b ws).replies = s.replies := by simp [State.setArray]

/-! ## `takeFault` -/

@[simp] theorem takeFault_fault (c : FaultCode) (s : State) : (takeFault c s).fault = c.code := rfl
@[simp] theorem takeFault_getX (c : FaultCode) (s : State) (r : Reg) : (takeFault c s).getX r = s.getX r := rfl
@[simp] theorem takeFault_x (c : FaultCode) (s : State) : (takeFault c s).x = s.x := rfl
@[simp] theorem takeFault_logn (c : FaultCode) (s : State) : (takeFault c s).logn = s.logn := rfl
@[simp] theorem takeFault_len (c : FaultCode) (s : State) : (takeFault c s).len = s.len := rfl
@[simp] theorem takeFault_bankA (c : FaultCode) (s : State) : (takeFault c s).bankA = s.bankA := rfl
@[simp] theorem takeFault_bankB (c : FaultCode) (s : State) : (takeFault c s).bankB = s.bankB := rfl
@[simp] theorem takeFault_draws (c : FaultCode) (s : State) : (takeFault c s).draws = s.draws := rfl
@[simp] theorem takeFault_pending (c : FaultCode) (s : State) : (takeFault c s).pending = s.pending := rfl
@[simp] theorem takeFault_replies (c : FaultCode) (s : State) : (takeFault c s).replies = s.replies := rfl
@[simp] theorem takeFault_bank (c : FaultCode) (s : State) (b : BankId) :
    (takeFault c s).bank b = s.bank b := by cases b <;> rfl
@[simp] theorem takeFault_word (c : FaultCode) (s : State) (b : BankId) (i : Nat) :
    (takeFault c s).word b i = s.word b i := by simp [State.word]

/-! ## `setLogn` -/

@[simp] theorem State.setLogn_x (s : State) (v : BitVec 5) : (s.setLogn v).x = s.x := rfl
@[simp] theorem State.setLogn_logn (s : State) (v : BitVec 5) : (s.setLogn v).logn = v := rfl
@[simp] theorem State.setLogn_len (s : State) (v : BitVec 5) : (s.setLogn v).len = s.len := rfl
@[simp] theorem State.setLogn_fault (s : State) (v : BitVec 5) : (s.setLogn v).fault = s.fault := rfl
@[simp] theorem State.setLogn_bankA (s : State) (v : BitVec 5) : (s.setLogn v).bankA = s.bankA := rfl
@[simp] theorem State.setLogn_bankB (s : State) (v : BitVec 5) : (s.setLogn v).bankB = s.bankB := rfl
@[simp] theorem State.setLogn_draws (s : State) (v : BitVec 5) : (s.setLogn v).draws = s.draws := rfl
@[simp] theorem State.setLogn_pending (s : State) (v : BitVec 5) : (s.setLogn v).pending = s.pending := rfl
@[simp] theorem State.setLogn_replies (s : State) (v : BitVec 5) : (s.setLogn v).replies = s.replies := rfl
@[simp] theorem State.setLogn_getX (s : State) (v : BitVec 5) (r : Reg) : (s.setLogn v).getX r = s.getX r := rfl
@[simp] theorem State.setLogn_bank (s : State) (v : BitVec 5) (b : BankId) : (s.setLogn v).bank b = s.bank b := by
  cases b <;> rfl
@[simp] theorem State.setLogn_word (s : State) (v : BitVec 5) (b : BankId) (i : Nat) :
    (s.setLogn v).word b i = s.word b i := by simp [State.word]

/-! ## `setLen` -/

@[simp] theorem State.setLen_x (s : State) (v : Word) : (s.setLen v).x = s.x := rfl
@[simp] theorem State.setLen_logn (s : State) (v : Word) : (s.setLen v).logn = s.logn := rfl
@[simp] theorem State.setLen_len (s : State) (v : Word) : (s.setLen v).len = v := rfl
@[simp] theorem State.setLen_fault (s : State) (v : Word) : (s.setLen v).fault = s.fault := rfl
@[simp] theorem State.setLen_bankA (s : State) (v : Word) : (s.setLen v).bankA = s.bankA := rfl
@[simp] theorem State.setLen_bankB (s : State) (v : Word) : (s.setLen v).bankB = s.bankB := rfl
@[simp] theorem State.setLen_draws (s : State) (v : Word) : (s.setLen v).draws = s.draws := rfl
@[simp] theorem State.setLen_pending (s : State) (v : Word) : (s.setLen v).pending = s.pending := rfl
@[simp] theorem State.setLen_replies (s : State) (v : Word) : (s.setLen v).replies = s.replies := rfl
@[simp] theorem State.setLen_getX (s : State) (v : Word) (r : Reg) : (s.setLen v).getX r = s.getX r := rfl
@[simp] theorem State.setLen_bank (s : State) (v : Word) (b : BankId) : (s.setLen v).bank b = s.bank b := by
  cases b <;> rfl
@[simp] theorem State.setLen_word (s : State) (v : Word) (b : BankId) (i : Nat) :
    (s.setLen v).word b i = s.word b i := by simp [State.word]

/-! ## `addDraws` -/

@[simp] theorem State.addDraws_x (s : State) (k : Nat) : (s.addDraws k).x = s.x := rfl
@[simp] theorem State.addDraws_logn (s : State) (k : Nat) : (s.addDraws k).logn = s.logn := rfl
@[simp] theorem State.addDraws_len (s : State) (k : Nat) : (s.addDraws k).len = s.len := rfl
@[simp] theorem State.addDraws_fault (s : State) (k : Nat) : (s.addDraws k).fault = s.fault := rfl
@[simp] theorem State.addDraws_bankA (s : State) (k : Nat) : (s.addDraws k).bankA = s.bankA := rfl
@[simp] theorem State.addDraws_bankB (s : State) (k : Nat) : (s.addDraws k).bankB = s.bankB := rfl
@[simp] theorem State.addDraws_draws (s : State) (k : Nat) : (s.addDraws k).draws = s.draws + k := rfl
@[simp] theorem State.addDraws_pending (s : State) (k : Nat) : (s.addDraws k).pending = s.pending := rfl
@[simp] theorem State.addDraws_replies (s : State) (k : Nat) : (s.addDraws k).replies = s.replies := rfl
@[simp] theorem State.addDraws_getX (s : State) (k : Nat) (r : Reg) : (s.addDraws k).getX r = s.getX r := rfl
@[simp] theorem State.addDraws_bank (s : State) (k : Nat) (b : BankId) : (s.addDraws k).bank b = s.bank b := by
  cases b <;> rfl
@[simp] theorem State.addDraws_word (s : State) (k : Nat) (b : BankId) (i : Nat) :
    (s.addDraws k).word b i = s.word b i := by simp [State.word]

/-! ## `setPending` -/

@[simp] theorem State.setPending_x (s : State) (ts : List Transaction) : (s.setPending ts).x = s.x := rfl
@[simp] theorem State.setPending_logn (s : State) (ts : List Transaction) : (s.setPending ts).logn = s.logn := rfl
@[simp] theorem State.setPending_len (s : State) (ts : List Transaction) : (s.setPending ts).len = s.len := rfl
@[simp] theorem State.setPending_fault (s : State) (ts : List Transaction) : (s.setPending ts).fault = s.fault := rfl
@[simp] theorem State.setPending_bankA (s : State) (ts : List Transaction) : (s.setPending ts).bankA = s.bankA := rfl
@[simp] theorem State.setPending_bankB (s : State) (ts : List Transaction) : (s.setPending ts).bankB = s.bankB := rfl
@[simp] theorem State.setPending_draws (s : State) (ts : List Transaction) : (s.setPending ts).draws = s.draws := rfl
@[simp] theorem State.setPending_pending (s : State) (ts : List Transaction) : (s.setPending ts).pending = ts := rfl
@[simp] theorem State.setPending_replies (s : State) (ts : List Transaction) : (s.setPending ts).replies = s.replies := rfl
@[simp] theorem State.setPending_getX (s : State) (ts : List Transaction) (r : Reg) : (s.setPending ts).getX r = s.getX r := rfl
@[simp] theorem State.setPending_bank (s : State) (ts : List Transaction) (b : BankId) : (s.setPending ts).bank b = s.bank b := by
  cases b <;> rfl
@[simp] theorem State.setPending_word (s : State) (ts : List Transaction) (b : BankId) (i : Nat) :
    (s.setPending ts).word b i = s.word b i := by simp [State.word]

/-! ## The port and reset -/

@[simp] theorem reply_getX (v : Word) (s : State) (r : Reg) : (reply v s).getX r = s.getX r := rfl
@[simp] theorem reply_logn (v : Word) (s : State) : (reply v s).logn = s.logn := rfl
@[simp] theorem reply_len (v : Word) (s : State) : (reply v s).len = s.len := rfl
@[simp] theorem reply_fault (v : Word) (s : State) : (reply v s).fault = s.fault := rfl
@[simp] theorem reply_bankA (v : Word) (s : State) : (reply v s).bankA = s.bankA := rfl
@[simp] theorem reply_bankB (v : Word) (s : State) : (reply v s).bankB = s.bankB := rfl
@[simp] theorem reply_draws (v : Word) (s : State) : (reply v s).draws = s.draws := rfl
@[simp] theorem reply_pending (v : Word) (s : State) : (reply v s).pending = s.pending := rfl
@[simp] theorem reply_replies (v : Word) (s : State) : (reply v s).replies = s.replies ++ [v] := rfl
@[simp] theorem reply_bank (v : Word) (s : State) (b : BankId) : (reply v s).bank b = s.bank b := by
  cases b <;> rfl
@[simp] theorem reply_word (v : Word) (s : State) (b : BankId) (i : Nat) :
    (reply v s).word b i = s.word b i := by simp [State.word]

@[simp] theorem hostReset_fault (s : State) : (hostReset s).fault = 0 := rfl
@[simp] theorem hostReset_logn (s : State) : (hostReset s).logn = 0 := rfl
@[simp] theorem hostReset_len (s : State) : (hostReset s).len = 0 := rfl
@[simp] theorem hostReset_draws (s : State) : (hostReset s).draws = s.draws + 3 := rfl
@[simp] theorem hostReset_pending (s : State) : (hostReset s).pending = s.pending := rfl
@[simp] theorem hostReset_replies (s : State) : (hostReset s).replies = s.replies := rfl
theorem hostReset_getX (s : State) (r : Reg) :
    (hostReset s).getX r = Config.freeWord (s.draws + 2) r := by simp [hostReset, State.getX]

/-! ## Derived reads -/

theorem State.halted_iff (s : State) : s.halted = true ↔ s.fault ≠ 0 := by simp [State.halted]
theorem State.not_halted (s : State) (h : s.fault = 0) : s.halted = false := by simp [State.halted, h]

theorem State.logLength_eq (s t : State) (h : t.logn = s.logn) : t.logLength = s.logLength := by
  simp [State.logLength, h]
theorem State.length_eq (s t : State) (h : t.logn = s.logn) : t.length = s.length := by
  simp [State.length, State.logLength_eq s t h]
theorem State.length_pos (s : State) : 0 < s.length := Nat.two_pow_pos _

/-- Two states with the same fields are the same. -/
theorem State.ext_fields {s t : State} (hx : s.x = t.x) (hn : s.logn = t.logn) (hl : s.len = t.len)
    (hf : s.fault = t.fault) (ha : s.bankA = t.bankA) (hb : s.bankB = t.bankB) (hd : s.draws = t.draws)
    (hp : s.pending = t.pending) (hr : s.replies = t.replies) : s = t := by
  cases s; cases t; simp_all

end Sys2Proof.Machine
end

