-- ==== Sys2Proof/Laws/Exec.lean ====
section
/-! SUPPORT. What the shared operations and the commands answer, said once: the array a vector command
reads and writes, the two outcomes of a checked command, and the list of everything a command can do to
the state. -/

namespace Sys2Proof.Machine

/-! ## Banks as arrays -/

@[simp] theorem State.length_array (s : State) (b : BankId) : (s.array b).length = s.length := by
  simp [State.array]

theorem State.getD_array (s : State) (b : BankId) {i : Nat} (h : i < s.length) :
    (s.array b).getD i 0 = s.word b i := Memory.getD_readArray _ h _

theorem State.word_setArray (s : State) (b c : BankId) (ws : List Word) (i : Nat) :
    (s.setArray b ws).word c i = if c = b ∧ i < ws.length then ws.getD i 0 else s.word c i := by
  by_cases h : c = b
  · subst h
    simp [State.word, State.setArray, Memory.read_writeArray]
  · simp [State.word, State.setArray, State.bank_setBank_ne _ _ h, h]

theorem State.word_setWord (s : State) (b c : BankId) (i j : Nat) (v : Word) :
    (s.setWord b i v).word c j = if c = b ∧ j = i then v else s.word c j := by
  by_cases h : c = b
  · subst h
    simp [State.word, State.setWord, Memory.read_write]
  · simp [State.word, State.setWord, State.bank_setBank_ne _ _ h, h]

theorem rangeCheck_iff (s : State) (b : BankId) : rangeCheck s b = true ↔ FieldArray s b := by
  simp only [rangeCheck, State.array, Memory.readArray, List.all_map, List.all_eq_true, List.mem_range,
    Function.comp_apply, inField_iff]
  rfl

theorem rangeCheck_eq_false_iff (s : State) (b : BankId) :
    rangeCheck s b = false ↔ ∃ i, i < s.length ∧ MOD ≤ (s.word b i).toNat := by
  rw [← Bool.not_eq_true, rangeCheck_iff]
  simp [FieldArray]

theorem FieldArray.getD_array {s : State} {b : BankId} (h : FieldArray s b) (p : Nat) (hp : p < s.length) :
    ((s.array b).getD p 0).toNat < MOD := by
  rw [State.getD_array s b hp]; exact h p hp

/-! ## The outcomes of the shared operations -/

theorem checkedOp_pass {ok : Word → Word → Bool} (f : Word → Word → Word) (rd : Reg) {ra rb : Reg} {s : State}
    (h : ok (s.getX ra) (s.getX rb) = true) :
    checkedOp ok f rd ra rb s = .next (s.setX rd (f (s.getX ra) (s.getX rb))) := if_pos h

theorem checkedOp_fail {ok : Word → Word → Bool} (f : Word → Word → Word) (rd : Reg) {ra rb : Reg} {s : State}
    (h : ok (s.getX ra) (s.getX rb) = false) : checkedOp ok f rd ra rb s = .next (rangeFaultX rd s) :=
  if_neg (by simp [h])

theorem vectorOp_pass (b : BankId) {ok : Bool} (f : List Word → List Word) {s : State}
    (hn : s.logLength ≤ 23) (h : ok = true) : vectorOp b ok f s = .next (s.setArray b (f (s.array b))) := by
  rw [vectorOp, if_pos (show s.logLength ≤ LOGNMAX from hn), if_pos h]

theorem vectorOp_fail (b : BankId) {ok : Bool} (f : List Word → List Word) {s : State}
    (hn : s.logLength ≤ 23) (h : ok = false) : vectorOp b ok f s = .next (rangeFaultArray b s) := by
  rw [vectorOp, if_pos (show s.logLength ≤ LOGNMAX from hn), if_neg (by simp [h])]

theorem rangeFaultX_getX (rd : Reg) (s : State) (r : Reg) (h : r ≠ rd) :
    (rangeFaultX rd s).getX r = s.getX r := by
  simp [rangeFaultX, State.getX_setX_ne _ _ h]

theorem rangeFaultArray_word (b c : BankId) (s : State) (i : Nat) (h : c ≠ b ∨ s.length ≤ i) :
    (rangeFaultArray b s).word c i = s.word c i := by
  simp only [rangeFaultArray, takeFault_word, State.addDraws_word, State.word_setArray]
  rw [if_neg]
  simp
  intro hc
  rcases h with h | h
  · exact absurd hc h
  · exact h

/-! ## Everything a command can do -/

/-- The effects a command can have on the state, guards included. -/
inductive Effect (s : State) : State → Prop where
  /-- a scalar register is written -/
  | setX (rd : Reg) (v : Word) : Effect s (s.setX rd v)
  /-- a fault that changes `FAULT` only -/
  | fault (c : FaultCode) : Effect s (takeFault c s)
  /-- `F_RANGE` in a scalar command -/
  | rangeX (rd : Reg) : Effect s (rangeFaultX rd s)
  /-- a word of a bank is written -/
  | setWord (b : BankId) (i : Nat) (v : Word) (hi : i < DEPTH) : Effect s (s.setWord b i v)
  /-- the length is set -/
  | setLogn (l : Nat) (hl : l ≤ 23) : Effect s (s.setLogn (BitVec.ofNat 5 l))
  /-- the array of a bank is replaced -/
  | setArray (b : BankId) (ws : List Word) (hn : s.logLength ≤ 23) (hw : ws.length = s.length) :
      Effect s (s.setArray b ws)
  /-- `F_RANGE` in a vector command -/
  | rangeArray (b : BankId) (hn : s.logLength ≤ 23) : Effect s (rangeFaultArray b s)
  /-- digits replace a bank's words from index 0 on and are counted -/
  | norm (b : BankId) (ds : List Word) (hd : ds.length ≤ DEPTH) :
      Effect s ((s.setArray b ds).setLen (BitVec.ofNat 32 ds.length))
  /-- the count goes down -/
  | trim (l : Nat) (hl : l ≤ s.len.toNat) (hs : s.len.toNat ≤ DEPTH) :
      Effect s (s.setLen (BitVec.ofNat 32 l))

theorem rawOp_effect {f : Word → Word → Word} {rd ra rb : Reg} {s t : State}
    (h : rawOp f rd ra rb s = .next t) : Effect s t := by
  cases h; exact .setX _ _

theorem checkedOp_effect {ok : Word → Word → Bool} {f : Word → Word → Word} {rd ra rb : Reg} {s t : State}
    (h : checkedOp ok f rd ra rb s = .next t) : Effect s t := by
  simp only [checkedOp] at h
  split at h
  · exact rawOp_effect h
  · cases h; exact .rangeX _

theorem vectorOp_effect {b : BankId} {ok : Bool} {f : List Word → List Word} {s t : State}
    (hf : s.logLength ≤ 23 → (f (s.array b)).length = s.length) (h : vectorOp b ok f s = .next t) :
    Effect s t := by
  simp only [vectorOp] at h
  split at h
  · rename_i hn
    have hn : s.logLength ≤ 23 := hn
    split at h
    · cases h; exact .setArray _ _ hn (hf hn)
    · cases h; exact .rangeArray _ hn
  · cases h

theorem indexOperand_some {ra : Reg} {s : State} {i : Nat} (h : indexOperand ra s = some i) :
    i = (s.getX ra).toNat ∧ i < DEPTH := by
  simp only [indexOperand] at h
  split at h
  · cases h; exact ⟨rfl, ‹_›⟩
  · cases h

/-- A command that goes on has one of the effects listed. -/
theorem exec_effect (i : Instr) {s t : State} (h : exec i s = .next t) : Effect s t := by
  have hlen : ∀ b, (s.array b).length = 2 ^ s.logLength := fun b => s.length_array b
  cases i with
  | add rd ra rb => exact rawOp_effect h
  | sub rd ra rb => exact rawOp_effect h
  | lt rd ra rb => exact rawOp_effect (f := fun a b => truthWord (a.toNat < b.toNat)) h
  | addm rd ra rb => exact checkedOp_effect h
  | subm rd ra rb => exact checkedOp_effect h
  | mulm rd ra rb => exact checkedOp_effect h
  | powm rd ra rb => exact checkedOp_effect h
  | ldt rd t' k =>
    simp only [exec, execLdt] at h
    split at h <;> cases h
    · exact .setX _ _
    · exact .fault _
  | ldc rd bd ra =>
    simp only [exec, execLdc] at h
    split at h <;> cases h
    · exact .setX _ _
    · exact .fault _
  | stc rd bd ra =>
    simp only [exec, execStc] at h
    split at h <;> cases h
    · rename_i hi
      exact .setWord _ _ _ (indexOperand_some hi).2
    · exact .fault _
  | setn l =>
    simp only [exec, execSetn] at h
    split at h <;> cases h
    · exact .fault _
    · rename_i hl
      exact .setLogn l (by rw [LOGNMAX_eq] at hl; omega)
  | brev bd => exact vectorOp_effect (fun _ => by rw [length_brevArray, State.length_array]) h
  | bfly bd dir => exact vectorOp_effect (fun _ => length_bflyArray _ _ _ (hlen bd)) h
  | scal bd => exact vectorOp_effect (fun _ => by rw [length_scaleArray, State.length_array]) h
  | ntt bd dir => exact vectorOp_effect (fun _ => length_nttArray _ _ _ (hlen bd)) h
  | pmul bd bs =>
    exact vectorOp_effect (f := fun a => pmulArray a (s.array bs)) (fun _ => by simp) h
  | norm bd =>
    simp only [exec, execNorm] at h
    split at h <;> cases h
    · rename_i hd
      exact .norm _ _ (normLoop_length_le _ _ _ _ hd)
    · exact .fault _
  | trim bd =>
    simp only [exec, execTrim] at h
    split at h <;> cases h
    rename_i hs
    exact .trim _ (trimCount_le _ _) hs

/-! ## The invariant -/

theorem State.length_le_DEPTH {s : State} (h : s.logLength ≤ 23) : s.length ≤ DEPTH := by
  have : s.length ≤ 2 ^ 23 := Nat.pow_le_pow_right (by decide) h
  rw [DEPTH_eq]; omega

theorem State.Inv.bank {s : State} (h : s.Inv) (b : BankId) : (s.bank b).wf := by
  cases b
  · exact h.2.2.2.1
  · exact h.2.2.2.2

theorem State.Inv.setBank {s : State} (h : s.Inv) (b : BankId) {m : Memory} (hm : m.wf) :
    (s.setBank b m).Inv := by
  cases b
  · exact ⟨h.1, h.2.1, h.2.2.1, hm, h.2.2.2.2⟩
  · exact ⟨h.1, h.2.1, h.2.2.1, h.2.2.2.1, hm⟩

theorem State.Inv.setArray {s : State} (h : s.Inv) (b : BankId) (ws : List Word) (hw : ws.length ≤ DEPTH) :
    (s.setArray b ws).Inv :=
  h.setBank b (Memory.writeArray_wf (h.bank b) ws (by omega))

theorem State.Inv.takeFault {s : State} (h : s.Inv) (c : FaultCode) : (takeFault c s).Inv :=
  ⟨h.1, h.2.1, by rw [takeFault_fault]; cases c <;> decide, h.2.2.2⟩

theorem Effect.inv {s t : State} (e : Effect s t) (h : s.Inv) : t.Inv := by
  cases e with
  | setX rd v => exact h
  | fault c => exact h.takeFault c
  | rangeX rd =>
    have : ((s.setX rd (Config.freeWord s.draws rd)).addDraws 1).Inv := h
    exact this.takeFault _
  | setWord b i v hi => exact h.setBank b (Memory.write_wf (h.bank b) hi v)
  | setLogn l hl =>
    refine ⟨?_, h.2⟩
    show (BitVec.ofNat 5 l).toNat ≤ 23
    rw [BitVec.toNat_ofNat]
    omega
  | setArray b ws hn hw => exact h.setArray b ws (by rw [hw]; exact State.length_le_DEPTH hn)
  | rangeArray b hn =>
    have := h.setArray b ((List.range s.length).map (Config.freeWord s.draws))
      (by simpa using State.length_le_DEPTH hn)
    exact State.Inv.takeFault (s := (s.setArray b _).addDraws 1) this _
  | norm b ds hd =>
    have := h.setArray b ds hd
    refine ⟨this.1, ?_, this.2.2⟩
    show (BitVec.ofNat 32 ds.length).toNat ≤ DEPTH
    rw [BitVec.toNat_ofNat]
    exact le_trans (Nat.mod_le _ _) hd
  | trim l hl hs =>
    refine ⟨h.1, ?_, h.2.2⟩
    show (BitVec.ofNat 32 l).toNat ≤ DEPTH
    rw [BitVec.toNat_ofNat]
    exact le_trans (Nat.mod_le _ _) (le_trans hl hs)

/-! ## Values -/

/-- The number the first words of a bank denote, as a sum. -/
theorem valueOf_eq_sum (s : State) (b : BankId) (n : Nat) :
    valueOf s b n = ∑ m ∈ Finset.range n, (s.word b m).toNat * 10 ^ m := by
  induction n with
  | zero => rfl
  | succ n ih =>
    rw [Finset.sum_range_succ, ← ih, valueOf, List.range_succ, List.map_append, List.sum_append]
    simp [valueOf]

/-- The number the first words of a bank denote is that of the list of them. -/
theorem valueOf_eq_listValue (s : State) (b : BankId) (n : Nat) :
    valueOf s b n = listValue ((s.bank b).readArray n) := by
  rw [valueOf_eq_sum, listValue_eq_sum, Memory.length_readArray]
  apply Finset.sum_congr rfl
  intro i hi
  rw [Memory.getD_readArray _ (Finset.mem_range.1 hi)]
  rfl

end Sys2Proof.Machine
end

