-- ==== Sys2Proof/Laws/Frame.lean ====
section
/-! SUPPORT. The frames of the updates every meaning is made of, the equations of the vector commands
that pass their checks, and when two updates of a bank give the same state. -/

namespace Sys2Proof.Machine

/-! ## Frames -/

theorem onlyFault_takeFault (c : FaultCode) (s : State) : OnlyFault c.code.toNat s (takeFault c s) :=
  ⟨rfl, ⟨fun _ => rfl, fun _ _ _ => by simp, rfl, rfl⟩, ⟨rfl, rfl⟩, rfl⟩

theorem onlyRegister_setX (rd : Reg) (s : State) (v : Word) : OnlyRegister rd s (s.setX rd v) :=
  ⟨fun _ h => State.getX_setX_ne _ _ h, fun _ _ _ => by simp, ⟨rfl, rfl⟩, rfl, ⟨rfl, rfl⟩, rfl⟩

theorem onlyArray_setArray (s : State) (bd : BankId) (ws : List Word) (h : ws.length = s.length) :
    OnlyArray bd s.length s (s.setArray bd ws) := by
  refine ⟨fun _ => by simp, ⟨fun i hi => ?_, fun b hb i _ => ?_⟩, ⟨by simp, by simp⟩, by simp,
    ⟨by simp, by simp⟩, by simp⟩
  · rw [State.word_setArray, if_neg]; omega
  · rw [State.word_setArray, if_neg]; exact fun h => hb h.1

theorem rangeFaultArray_frame (b : BankId) (s : State) :
    (rangeFaultArray b s).fault = 3 ∧ SameRegs s (rangeFaultArray b s) ∧
    SameBanksButArray b s.length s (rangeFaultArray b s) ∧ SameControl s (rangeFaultArray b s) ∧
    SamePort s (rangeFaultArray b s) :=
  ⟨rfl, fun _ => by simp [rangeFaultArray],
    ⟨fun i hi => rangeFaultArray_word _ _ _ _ (.inr hi), fun c hc i _ => rangeFaultArray_word _ _ _ _ (.inl hc)⟩,
    ⟨by simp [rangeFaultArray], by simp [rangeFaultArray]⟩,
    ⟨by simp [rangeFaultArray], by simp [rangeFaultArray]⟩⟩

/-! ## The array after it was replaced -/

theorem State.logLength_setArray (s : State) (bd : BankId) (ws : List Word) :
    (s.setArray bd ws).logLength = s.logLength := State.logLength_eq _ _ (by simp)

theorem State.length_setArray (s : State) (bd : BankId) (ws : List Word) :
    (s.setArray bd ws).length = s.length := State.length_eq _ _ (by simp)

theorem State.word_setArray_lt (s : State) (bd : BankId) (ws : List Word) (h : ws.length = s.length) (i : Nat)
    (hi : i < s.length) : (s.setArray bd ws).word bd i = ws.getD i 0 := by
  rw [State.word_setArray, if_pos ⟨rfl, by omega⟩]

theorem State.word_setArray_ne (s : State) (ws : List Word) {b c : BankId} (h : c ≠ b) (i : Nat) :
    (s.setArray b ws).word c i = s.word c i := by
  rw [State.word_setArray, if_neg]; exact fun e => h e.1

/-- Lists of one length that agree word by word are the same. -/
theorem list_ext_getD {a b : List Word} (hl : a.length = b.length)
    (h : ∀ i, i < a.length → a.getD i 0 = b.getD i 0) : a = b := by
  apply List.ext_getElem hl
  intro i h1 h2
  have := h i h1
  rwa [List.getD_eq_getElem _ _ h1, List.getD_eq_getElem _ _ h2] at this

theorem State.array_setArray (s : State) (bd : BankId) (ws : List Word) (hl : ws.length = s.length) :
    (s.setArray bd ws).array bd = ws := by
  have hlen := State.length_setArray s bd ws
  apply list_ext_getD (by rw [State.length_array, hlen, hl])
  intro i hi
  rw [State.length_array] at hi
  rw [State.getD_array _ _ hi, State.word_setArray_lt _ _ _ hl i (by omega)]

theorem State.array_setArray_ne (s : State) (ws : List Word) {b c : BankId} (h : c ≠ b) :
    (s.setArray b ws).array c = s.array c := by
  have hlen := State.length_setArray s b ws
  unfold State.array
  rw [hlen, State.setArray, State.bank_setBank_ne _ _ h]

theorem FieldArray.setArray {s : State} {bd : BankId} {ws : List Word} (hl : ws.length = s.length)
    (h : ∀ p, p < s.length → (ws.getD p 0).toNat < MOD) : FieldArray (s.setArray bd ws) bd := by
  intro i hi
  rw [State.length_setArray] at hi
  rw [State.word_setArray_lt _ _ _ hl i hi]
  exact h i hi

theorem FieldArray.setArray_ne {s : State} {ws : List Word} {b c : BankId} (h : c ≠ b) (hf : FieldArray s c) :
    FieldArray (s.setArray b ws) c := by
  intro i hi
  rw [State.length_setArray] at hi
  rw [State.word_setArray_ne _ _ h]
  exact hf i hi

/-! ## Updates that give the same state -/

theorem State.setBank_setBank (s : State) (b : BankId) (m m' : Memory) :
    (s.setBank b m).setBank b m' = s.setBank b m' := by cases b <;> rfl

theorem State.setBank_bank (s : State) (b : BankId) : s.setBank b (s.bank b) = s := by cases b <;> rfl

/-- Writing the words an array holds changes nothing, the bank being in canonical form. -/
theorem State.setArray_eq_self {s : State} (hs : s.Inv) (bd : BankId) (ws : List Word)
    (hl : ws.length = s.length) (h : ∀ i, i < s.length → ws.getD i 0 = s.word bd i) : s.setArray bd ws = s := by
  have hd := State.length_le_DEPTH hs.1
  have e : (s.bank bd).writeArray 0 ws = s.bank bd := by
    apply Memory.ext_read (Memory.writeArray_wf (hs.bank bd) _ (by omega)) (hs.bank bd) (by simp)
    intro i
    rw [Memory.read_writeArray]
    split
    · rw [Nat.sub_zero]; exact h i (by omega)
    · rfl
  rw [State.setArray, e, State.setBank_bank]

/-- Of two replacements of an array the second counts, the bank being in canonical form. -/
theorem State.setArray_setArray {s : State} (hs : s.Inv) (bd : BankId) (ws vs : List Word)
    (hl : ws.length = s.length) (hl2 : vs.length = s.length) :
    (s.setArray bd ws).setArray bd vs = s.setArray bd vs := by
  have hd := State.length_le_DEPTH hs.1
  have e : ((s.bank bd).writeArray 0 ws).writeArray 0 vs = (s.bank bd).writeArray 0 vs := by
    apply Memory.ext_read (Memory.writeArray_wf (Memory.writeArray_wf (hs.bank bd) _ (by omega)) _ (by omega))
      (Memory.writeArray_wf (hs.bank bd) _ (by omega)) (by simp)
    intro i
    simp only [Memory.read_writeArray]
    split
    · rfl
    · rw [if_neg (by omega)]
  unfold State.setArray
  rw [State.bank_setBank_self, e, State.setBank_setBank]

/-! ## The vector commands where their checks pass -/

theorem exec_brev {s : State} (bd : BankId) (hn : s.logLength ≤ 23) :
    exec (.brev bd) s = .next (s.setArray bd (brevArray s.logLength (s.array bd))) :=
  vectorOp_pass bd _ hn rfl

theorem exec_bfly {s : State} (bd : BankId) (dir : Dir) (hn : s.logLength ≤ 23) (hf : FieldArray s bd) :
    exec (.bfly bd dir) s = .next (s.setArray bd (bflyArray dir s.logLength (s.array bd))) :=
  vectorOp_pass bd _ hn ((rangeCheck_iff _ _).2 hf)

theorem exec_scal {s : State} (bd : BankId) (hn : s.logLength ≤ 23) (hf : FieldArray s bd) :
    exec (.scal bd) s = .next (s.setArray bd (scaleArray s.logLength (s.array bd))) :=
  vectorOp_pass bd _ hn ((rangeCheck_iff _ _).2 hf)

theorem exec_ntt {s : State} (bd : BankId) (dir : Dir) (hn : s.logLength ≤ 23) (hf : FieldArray s bd) :
    exec (.ntt bd dir) s = .next (s.setArray bd (nttArray dir s.logLength (s.array bd))) :=
  vectorOp_pass bd _ hn ((rangeCheck_iff _ _).2 hf)

theorem exec_pmul {s : State} (bd bs : BankId) (hn : s.logLength ≤ 23) (hf : FieldArray s bd)
    (hg : FieldArray s bs) :
    exec (.pmul bd bs) s = .next (s.setArray bd (pmulArray (s.array bd) (s.array bs))) :=
  vectorOp_pass bd (fun a => pmulArray a (s.array bs)) hn
    (by rw [(rangeCheck_iff _ _).2 hf, (rangeCheck_iff _ _).2 hg]; rfl)

/-- In a state that meets the invariant no command stops. -/
theorem exec_total {s : State} (hs : s.Inv) (i : Instr) : ∃ t, exec i s = .next t := by
  have hv : ∀ bd ok f, ∃ t, vectorOp bd ok f s = .next t := by
    intro bd ok f
    cases ok
    · exact ⟨_, vectorOp_fail _ _ hs.1 rfl⟩
    · exact ⟨_, vectorOp_pass _ _ hs.1 rfl⟩
  have hc : ∀ ok f rd ra rb, ∃ t, checkedOp ok f rd ra rb s = .next t := by
    intro ok f rd ra rb
    simp only [checkedOp, rawOp]
    split <;> exact ⟨_, rfl⟩
  cases i with
  | add rd ra rb => exact ⟨_, rfl⟩
  | sub rd ra rb => exact ⟨_, rfl⟩
  | lt rd ra rb => exact ⟨_, rfl⟩
  | addm rd ra rb => exact hc _ _ _ _ _
  | subm rd ra rb => exact hc _ _ _ _ _
  | mulm rd ra rb => exact hc _ _ _ _ _
  | powm rd ra rb => exact hc _ _ _ _ _
  | ldt rd t' k => simp only [exec, execLdt]; split <;> exact ⟨_, rfl⟩
  | ldc rd bd ra => simp only [exec, execLdc]; split <;> exact ⟨_, rfl⟩
  | stc rd bd ra => simp only [exec, execStc]; split <;> exact ⟨_, rfl⟩
  | setn l => simp only [exec, execSetn]; split <;> exact ⟨_, rfl⟩
  | brev bd => exact hv _ _ _
  | bfly bd dir => exact hv _ _ _
  | scal bd => exact hv _ _ _
  | ntt bd dir => exact hv _ _ _
  | pmul bd bs => exact hv _ _ (fun a => pmulArray a (s.array bs))
  | norm bd => simp only [exec, execNorm]; split <;> exact ⟨_, rfl⟩
  | trim bd => exact ⟨_, if_pos hs.2.1⟩

/-- A command that ends with no fault began with none. -/
theorem exec_fault_zero {i : Instr} {s t : State} (h : exec i s = .next t) (ht : t.fault = 0) :
    s.fault = 0 := by
  have e := exec_effect i h
  cases e with
  | fault c => cases c <;> simp [FaultCode.code] at ht
  | rangeX rd => simp [rangeFaultX, FaultCode.code] at ht
  | rangeArray b hn => simp [rangeFaultArray, FaultCode.code] at ht
  | _ => simpa using ht

/-! ## Commands do not look at the host's side of the port -/

theorem State.setPending_setBank (s : State) (b : BankId) (m : Memory) (p : List Transaction) :
    (s.setPending p).setBank b m = (s.setBank b m).setPending p := by cases b <;> rfl

theorem State.setPending_setArray (s : State) (b : BankId) (ws : List Word) (p : List Transaction) :
    (s.setPending p).setArray b ws = (s.setArray b ws).setPending p := by
  unfold State.setArray
  rw [State.setPending_bank, State.setPending_setBank]

theorem State.setPending_setWord (s : State) (b : BankId) (i : Nat) (v : Word) (p : List Transaction) :
    (s.setPending p).setWord b i v = (s.setWord b i v).setPending p := by
  unfold State.setWord
  rw [State.setPending_bank, State.setPending_setBank]

theorem State.setPending_array (s : State) (b : BankId) (p : List Transaction) :
    (s.setPending p).array b = s.array b := by
  unfold State.array
  rw [State.setPending_bank]
  rfl

theorem exec_setPending {i : Instr} {s t : State} (h : exec i s = .next t) (p : List Transaction) :
    exec i (s.setPending p) = .next (t.setPending p) := by
  have hv : ∀ {b ok f}, vectorOp b ok f s = .next t → vectorOp b ok f (s.setPending p) = .next (t.setPending p) := by
    intro b ok f h
    unfold vectorOp at h ⊢
    split at h
    · rename_i hl
      rw [if_pos (by exact hl)]
      split at h <;> cases h
      · rename_i ho
        rw [if_pos ho, State.setPending_array, State.setPending_setArray]
      · rename_i ho
        rw [if_neg ho]
        unfold rangeFaultArray
        rw [State.setPending_setArray]
        rfl
    · cases h
  have hrc : ∀ b, rangeCheck (s.setPending p) b = rangeCheck s b := by
    intro b
    unfold rangeCheck
    rw [State.setPending_array]
  have hr : ∀ {f rd ra rb}, rawOp f rd ra rb s = .next t →
      rawOp f rd ra rb (s.setPending p) = .next (t.setPending p) := by
    intro f rd ra rb h
    cases h
    rfl
  have hc : ∀ {ok f rd ra rb}, checkedOp ok f rd ra rb s = .next t →
      checkedOp ok f rd ra rb (s.setPending p) = .next (t.setPending p) := by
    intro ok f rd ra rb h
    unfold checkedOp at h ⊢
    split at h
    · rename_i ho
      rw [if_pos (by exact ho)]
      exact hr h
    · rename_i ho
      rw [if_neg (by exact ho)]
      cases h
      rfl
  have hi : ∀ ra, indexOperand ra (s.setPending p) = indexOperand ra s := fun _ => rfl
  cases i with
  | add rd ra rb => exact hr h
  | sub rd ra rb => exact hr h
  | lt rd ra rb => exact hr (f := fun a b => truthWord (a.toNat < b.toNat)) h
  | addm rd ra rb => exact hc h
  | subm rd ra rb => exact hc h
  | mulm rd ra rb => exact hc h
  | powm rd ra rb => exact hc h
  | ldt rd t' k =>
    simp only [exec, execLdt] at h ⊢
    split at h <;> cases h <;> simp [*] <;> rfl
  | ldc rd bd ra =>
    simp only [exec, execLdc, hi] at h ⊢
    split at h <;> cases h <;> simp [*] <;> rfl
  | stc rd bd ra =>
    simp only [exec, execStc, hi] at h ⊢
    split at h <;> cases h <;> simp [*]
    · rw [State.setPending_setWord]
    · rfl
  | setn l =>
    simp only [exec, execSetn] at h ⊢
    split at h <;> cases h <;> simp [*] <;> rfl
  | brev bd => exact hv h
  | bfly bd dir => simp only [exec, execBfly, hrc] at h ⊢; exact hv h
  | scal bd => simp only [exec, execScal, hrc] at h ⊢; exact hv h
  | ntt bd dir => simp only [exec, execNtt, hrc] at h ⊢; exact hv h
  | pmul bd bs => simp only [exec, execPmul, hrc, State.setPending_array] at h ⊢; exact hv h
  | norm bd =>
    simp only [exec, execNorm, State.setPending_array] at h ⊢
    split at h <;> cases h <;> simp [*]
    · rw [State.setPending_setArray]; rfl
    · rfl
  | trim bd =>
    simp only [exec, execTrim] at h ⊢
    split at h <;> cases h
    rename_i hl
    rw [if_pos (by exact hl)]
    congr 1

end Sys2Proof.Machine
end

