-- ==== Sys2Proof/Laws/PerInstr.lean ====
section
/-! SUPPORT. A statement of every instruction as syntax, one lemma per constructor: its encoding matches
its own row of the opcode map (rule R53), whatever its operands. -/

namespace Sys2Proof.Laws.EncodeMatchesRow

/-- The encoding has the row's opcode and zeros wherever the row's mask wants them. -/
def Statement (i : Instr) : Prop := encode i &&& i.op.mask = i.op.pattern

theorem add (rd ra rb : Reg) : Statement (.add rd ra rb) := mask_wordS _ rd ra rb

theorem sub (rd ra rb : Reg) : Statement (.sub rd ra rb) := mask_wordS _ rd ra rb

theorem lt (rd ra rb : Reg) : Statement (.lt rd ra rb) := mask_wordS _ rd ra rb

theorem addm (rd ra rb : Reg) : Statement (.addm rd ra rb) := mask_wordS _ rd ra rb

theorem subm (rd ra rb : Reg) : Statement (.subm rd ra rb) := mask_wordS _ rd ra rb

theorem mulm (rd ra rb : Reg) : Statement (.mulm rd ra rb) := mask_wordS _ rd ra rb

theorem powm (rd ra rb : Reg) : Statement (.powm rd ra rb) := mask_wordS _ rd ra rb

theorem ldt (rd : Reg) (t k : Nat) : Statement (.ldt rd t k) := mask_wordT _ rd t k

theorem ldc (rd : Reg) (bd : BankId) (ra : Reg) : Statement (.ldc rd bd ra) := mask_wordM _ rd bd ra

theorem stc (rd : Reg) (bd : BankId) (ra : Reg) : Statement (.stc rd bd ra) := mask_wordM _ rd bd ra

theorem setn (logn : Nat) : Statement (.setn logn) := by
  have h : ∀ v : BitVec 5, wordV 0x20 0 0 v &&& Op.setn.mask = Op.setn.pattern := by decide
  exact h _

theorem brev (bd : BankId) : Statement (.brev bd) := by cases bd <;> rfl

theorem scal (bd : BankId) : Statement (.scal bd) := by cases bd <;> rfl

theorem norm (bd : BankId) : Statement (.norm bd) := by cases bd <;> rfl

theorem trim (bd : BankId) : Statement (.trim bd) := by cases bd <;> rfl

theorem bfly (bd : BankId) (dir : Dir) : Statement (.bfly bd dir) := by
  cases bd <;> cases dir <;> rfl

theorem ntt (bd : BankId) (dir : Dir) : Statement (.ntt bd dir) := by
  cases bd <;> cases dir <;> rfl

theorem pmul (bd bs : BankId) : Statement (.pmul bd bs) := by cases bd <;> cases bs <;> rfl

end Sys2Proof.Laws.EncodeMatchesRow
end

