-- ==== Sys2Proof/Laws/Port.lean ====
section
/-! SUPPORT. Where the addresses of the port lead (rule R32), and what one step does with the transaction
at the head of the queue. -/

namespace Sys2Proof.Machine

/-! ## The address map, region by region -/

theorem region_toNat (ha : PortAddr) : (ha.extractLsb' 24 2).toNat = ha.toNat / 0x1000000 := by
  have := ha.isLt
  rw [BitVec.extractLsb'_toNat, Nat.shiftRight_eq_div_pow]
  omega

theorem index_toNat (ha : PortAddr) : (ha.extractLsb' 0 24).toNat = ha.toNat % 0x1000000 := by
  rw [BitVec.extractLsb'_toNat, Nat.shiftRight_zero]

/-- An address below `0x1000000` is a word of bank `A`. -/
theorem placeOf_bankA (ha : PortAddr) (h : ha.toNat < 0x1000000) : placeOf ha = bankPlace .A ha.toNat := by
  have hr : (ha.extractLsb' 24 2).toNat = 0 := by rw [region_toNat]; omega
  simp only [placeOf, hr, index_toNat]
  rw [Nat.mod_eq_of_lt h]

/-- An address from `0x1000000` and below `0x2000000` is a word of bank `B`. -/
theorem placeOf_bankB (ha : PortAddr) (h1 : 0x1000000 ≤ ha.toNat) (h2 : ha.toNat < 0x2000000) :
    placeOf ha = bankPlace .B (ha.toNat - 0x1000000) := by
  have hr : (ha.extractLsb' 24 2).toNat = 1 := by rw [region_toNat]; omega
  simp only [placeOf, hr, index_toNat]
  rw [show ha.toNat % 0x1000000 = ha.toNat - 0x1000000 by omega]

/-- The ROM region. -/
theorem placeOf_rom (ha : PortAddr) (h1 : 0x2000000 ≤ ha.toNat) (h2 : ha.toNat < 0x3000000) :
    placeOf ha =
      if ha.toNat < 0x2000080 ∧ ha.toNat / 32 % 4 ≤ 2 ∧ ha.toNat % 32 ≤ 23
      then .rom (ha.toNat / 32 % 4) (ha.toNat % 32) else .nothing := by
  have hr : (ha.extractLsb' 24 2).toNat = 2 := by rw [region_toNat]; omega
  have hz : ha.extractLsb' 7 17 = 0 ↔ ha.toNat < 0x2000080 := by
    rw [← BitVec.toNat_inj, BitVec.extractLsb'_toNat, Nat.shiftRight_eq_div_pow]
    simp
    omega
  have ht : (ha.extractLsb' 5 2).toNat = ha.toNat / 32 % 4 := by
    rw [BitVec.extractLsb'_toNat, Nat.shiftRight_eq_div_pow]
  have hk : (ha.extractLsb' 0 5).toNat = ha.toNat % 32 := by
    rw [BitVec.extractLsb'_toNat, Nat.shiftRight_zero]
  simp only [placeOf, hr, hz, ht, hk]

/-- The register region. -/
theorem placeOf_register (ha : PortAddr) (h1 : 0x3000000 ≤ ha.toNat) :
    placeOf ha = if ha.toNat < 0x3000020 then registerPlace (ha.toNat - 0x3000000) else .nothing := by
  have hlt := ha.isLt
  have hr : (ha.extractLsb' 24 2).toNat = 3 := by rw [region_toNat]; omega
  have hz : ha.extractLsb' 5 19 = 0 ↔ ha.toNat < 0x3000020 := by
    rw [← BitVec.toNat_inj, BitVec.extractLsb'_toNat, Nat.shiftRight_eq_div_pow]
    simp
    omega
  have hq : (ha.extractLsb' 0 5).toNat = ha.toNat % 32 := by
    rw [BitVec.extractLsb'_toNat, Nat.shiftRight_zero]
  simp only [placeOf, hr, hz, hq]
  split
  · rw [show ha.toNat % 32 = ha.toNat - 0x3000000 by omega]
  · rfl

theorem bankPlace_of_lt (b : BankId) {i : Nat} (h : i < DEPTH) : bankPlace b i = .bank b i := if_pos h
theorem bankPlace_of_le (b : BankId) {i : Nat} (h : DEPTH ≤ i) : bankPlace b i = .nothing :=
  if_neg (Nat.not_lt.2 h)

theorem registerPlace_x (r : Reg) : registerPlace r.val = .x r := by
  simp [registerPlace]

@[simp] theorem placeOf_cmdAddr : placeOf cmdAddr = .cmd := by decide

/-- The flat address of a bank word leads to that word. -/
theorem placeOf_bankAddr (b : BankId) {i : Nat} (h : i < DEPTH) : placeOf (bankAddr b i) = .bank b i := by
  have hd : DEPTH = 8388624 := rfl
  cases b with
  | A =>
    have e : (bankAddr .A i).toNat = i := by
      show (BitVec.ofNat 26 i).toNat = i
      rw [BitVec.toNat_ofNat]; omega
    rw [placeOf_bankA _ (by omega), e, bankPlace_of_lt _ h]
  | B =>
    have e : (bankAddr .B i).toNat = 0x1000000 + i := by
      show (BitVec.ofNat 26 (0x1000000 + i)).toNat = _
      rw [BitVec.toNat_ofNat]; omega
    rw [placeOf_bankB _ (by omega) (by omega), e]
    rw [show 0x1000000 + i - 0x1000000 = i by omega, bankPlace_of_lt _ h]

/-! ## One step -/

theorem step_of_pending {s : State} {t : Transaction} {rest : List Transaction} (h : s.pending = t :: rest) :
    step s = perform t (s.setPending rest) := by
  simp only [step, serve, h]

theorem step_read {s : State} {ha : PortAddr} {rest : List Transaction} (h : s.pending = .read ha :: rest) :
    step s = .next (hostRead ha (s.setPending rest)) := step_of_pending h

theorem step_write {s : State} {ha : PortAddr} {v : Word} {rest : List Transaction}
    (h : s.pending = .write ha v :: rest) : step s = hostWrite ha v (s.setPending rest) := step_of_pending h

theorem step_reset {s : State} {rest : List Transaction} (h : s.pending = .reset :: rest) :
    step s = .next (hostReset (s.setPending rest)) := step_of_pending h

/-- A legal read answers the word and does nothing else. -/
theorem hostRead_legal {s : State} {ha : PortAddr} {v : Word} (h : readPlace s (placeOf ha) = some v) :
    hostRead ha s = reply v s := by
  simp only [hostRead, h]

/-- An illegal read answers a free value and takes `F_ADDR` unless the unit is halted. -/
theorem hostRead_illegal {s : State} {ha : PortAddr} (h : readPlace s (placeOf ha) = none) :
    hostRead ha s = illegalAccess ((reply (Config.freeWord s.draws 0) s).addDraws 1) := by
  simp only [hostRead, h]

theorem hostWrite_halted {s : State} (ha : PortAddr) (v : Word) (h : s.fault ≠ 0) :
    hostWrite ha v s = .next s := if_pos ((State.halted_iff s).2 h)

/-- What a write does in a unit that is not halted, by the place it names. -/
theorem hostWrite_running {s : State} (ha : PortAddr) (v : Word) (h : s.fault = 0) :
    hostWrite ha v s =
      match placeOf ha with
      | .bank b i => .next (s.setWord b i v)
      | .x r => .next (s.setX r v)
      | .len => if v.toNat ≤ DEPTH then .next (s.setLen v) else .next (takeFault .addr s)
      | .cmd => runCommand v s
      | .rom _ _ => .next (takeFault .addr s)
      | .fault => .next (takeFault .addr s)
      | .logn => .next (takeFault .addr s)
      | .nothing => .next (takeFault .addr s) :=
  (if_neg (by simp only [State.not_halted s h, Bool.false_eq_true, not_false_eq_true])).trans
    (by cases placeOf ha <;> rfl)

theorem illegalAccess_running {s : State} (h : s.fault = 0) : illegalAccess s = takeFault .addr s := by
  simp only [illegalAccess, State.not_halted s h, Bool.false_eq_true, if_false]

theorem illegalAccess_halted {s : State} (h : s.fault ≠ 0) : illegalAccess s = s := by
  simp only [illegalAccess, (State.halted_iff s).2 h, if_true]

/-! ## Runs -/

theorem steps_succ_of_step {s t : State} (k : Nat) (h : step s = .next t) : steps (k + 1) s = steps k t := by
  simp only [steps, h]

theorem steps_add (j k : Nat) (s t : State) (h : steps j s = some t) : steps (j + k) s = steps k t := by
  induction j generalizing s with
  | zero => cases h; rw [Nat.zero_add]
  | succ j ih =>
    rw [Nat.add_right_comm]
    simp only [steps] at h ⊢
    cases hs : step s with
    | next u => simp only [hs] at h; exact ih u h
    | fault r => simp [hs] at h
    | refused r => simp [hs] at h

theorem execAll_cons_of_exec {i : Instr} {s t : State} (is : List Instr) (h : exec i s = .next t) :
    execAll (i :: is) s = execAll is t := by
  simp only [execAll, h]

/-! ## Which places an address can name -/

/-- A bank place lies in the bank. -/
theorem placeOf_bank_lt {ha : PortAddr} {b : BankId} {i : Nat} (h : placeOf ha = .bank b i) : i < DEPTH := by
  by_cases h0 : ha.toNat < 0x1000000
  · rw [placeOf_bankA _ h0] at h; unfold bankPlace at h; split at h <;> cases h; assumption
  · by_cases h1 : ha.toNat < 0x2000000
    · rw [placeOf_bankB _ (by omega) h1] at h; unfold bankPlace at h; split at h <;> cases h; assumption
    · by_cases h2 : ha.toNat < 0x3000000
      · rw [placeOf_rom _ (by omega) h2] at h; split at h <;> cases h
      · rw [placeOf_register _ (by omega)] at h
        split at h
        · simp only [registerPlace] at h; split_ifs at h
        · cases h

/-- Only `cmdAddr` names `CMD`. -/
theorem placeOf_eq_cmd {ha : PortAddr} (h : placeOf ha = .cmd) : ha = cmdAddr := by
  apply BitVec.eq_of_toNat_eq
  show ha.toNat = 0x3000010
  by_cases h0 : ha.toNat < 0x1000000
  · rw [placeOf_bankA _ h0] at h; unfold bankPlace at h; split at h <;> cases h
  · by_cases h1 : ha.toNat < 0x2000000
    · rw [placeOf_bankB _ (by omega) h1] at h; unfold bankPlace at h; split at h <;> cases h
    · by_cases h2 : ha.toNat < 0x3000000
      · rw [placeOf_rom _ (by omega) h2] at h; split at h <;> cases h
      · rw [placeOf_register _ (by omega)] at h
        split at h
        · simp only [registerPlace] at h; split_ifs at h; omega
        · cases h

/-- Nothing is mapped at an unmapped address. -/
theorem placeOf_unmapped {ha : PortAddr} (h : Unmapped ha) : placeOf ha = .nothing := by
  have hD : DEPTH = 8388624 := rfl
  rcases h with ⟨h1, h2⟩ | ⟨h1, h2⟩ | ⟨h1, h2, h3⟩ | h1
  · rw [placeOf_bankA _ h2, bankPlace_of_le _ h1]
  · rw [placeOf_bankB _ (by omega) h2, bankPlace_of_le _ (by omega)]
  · rw [placeOf_rom _ h1 h2, if_neg]
    rintro ⟨g1, g2, g3⟩
    exact h3 (ha.toNat / 32 % 4) (ha.toNat % 32) g2 g3 (by omega)
  · rw [placeOf_register _ (by omega)]
    split
    · simp only [registerPlace]
      split_ifs <;> first | omega | rfl
    · rfl

end Sys2Proof.Machine
end

