-- ==== Sys2Proof/Machine/Assembler.lean ====
section
/-! DEFINITION. The textual form of a command (rule R60): the mnemonic in capitals, then the operands in
the order of the "Operands" column, separated by commas. -/

namespace Sys2Proof.Machine

/-- A scalar register, `x0` to `x15`. -/
def regText (r : Reg) : String := "x" ++ Nat.repr r.val

/-- A bank, `A` or `B`. -/
def bankText : BankId → String
  | .A => "A"
  | .B => "B"

/-- A direction, `FWD` or `INV`. -/
def dirText : Dir → String
  | .fwd => "FWD"
  | .inv => "INV"

/-- A table: `ROOT`, `IROOT` or `ILEN`; the table that does not exist is written by its number. -/
def tableText (t : Nat) : String :=
  if t = 0 then "ROOT" else if t = 1 then "IROOT" else if t = 2 then "ILEN" else Nat.repr t

/-- Mnemonic and operands. -/
def line (mnemonic : String) (operands : List String) : String :=
  mnemonic ++ " " ++ ", ".intercalate operands

/-- The text of a command (rule R60); the index register of `LDC` and `STC` stands in parentheses. -/
def asmText : Instr → String
  | .add rd ra rb => line "ADD" [regText rd, regText ra, regText rb]
  | .sub rd ra rb => line "SUB" [regText rd, regText ra, regText rb]
  | .lt rd ra rb => line "LT" [regText rd, regText ra, regText rb]
  | .addm rd ra rb => line "ADDM" [regText rd, regText ra, regText rb]
  | .subm rd ra rb => line "SUBM" [regText rd, regText ra, regText rb]
  | .mulm rd ra rb => line "MULM" [regText rd, regText ra, regText rb]
  | .powm rd ra rb => line "POWM" [regText rd, regText ra, regText rb]
  | .ldt rd t k => line "LDT" [regText rd, tableText t, Nat.repr k]
  | .ldc rd bd ra => line "LDC" [regText rd, bankText bd, "(" ++ regText ra ++ ")"]
  | .stc rd bd ra => line "STC" [regText rd, bankText bd, "(" ++ regText ra ++ ")"]
  | .setn logn => line "SETN" [Nat.repr logn]
  | .brev bd => line "BREV" [bankText bd]
  | .bfly bd dir => line "BFLY" [bankText bd, dirText dir]
  | .scal bd => line "SCAL" [bankText bd]
  | .ntt bd dir => line "NTT" [bankText bd, dirText dir]
  | .pmul bd bs => line "PMUL" [bankText bd, bankText bs]
  | .norm bd => line "NORM" [bankText bd]
  | .trim bd => line "TRIM" [bankText bd]

end Sys2Proof.Machine
end

