-- ==== Sys2Proof/Tests/Slice0.lean ====
section
/-! SUPPORT. Tests. Every expected value is from the spec: the words of rules R52, R53 and R60, the
examples of the command rules and the vectors of 95_test_vectors.md (named in each comment). Then a
witness for the hypotheses of each statement. -/

namespace Sys2Proof.Tests

open Sys2Proof Sys2Proof.Machine

/-! ## Helpers -/

/-- What an outcome leaves, looked at through `f`; none if the machine stopped. -/
def after {α : Type} (r : Result) (f : State → α) : Option α :=
  match r with
  | .next t => some (f t)
  | .fault _ => none
  | .refused _ => none

/-- Reset, with two registers set: `x1 = a`, `x2 = b`. -/
def regs (a b : Word) : State := (State.reset.setX 1 a).setX 2 b

/-- Reset, with a length set and words in a bank from index 0 on. -/
def bankWith (logn : BitVec 5) (b : BankId) (ws : List Word) : State := (State.reset.setLogn logn).setArray b ws

/-- Reset, with one transaction pending. -/
def pendingOne (t : Transaction) : State := State.reset.setPending [t]

/-- Reset, but halted with fault code 2, and one transaction pending. -/
def haltedOne (t : Transaction) : State := (takeFault .size State.reset).setPending [t]

/-! ## Well-formedness: a term for each check, refused -/

theorem test_wellFormed_refuses_table_4 : ¬ (Instr.ldt 1 4 0).WellFormed := by decide
theorem test_wellFormed_refuses_entry_32 : ¬ (Instr.ldt 1 0 32).WellFormed := by decide
theorem test_wellFormed_refuses_logn_32 : ¬ (Instr.setn 32).WellFormed := by decide
theorem test_wellFormed_admits_faulting_forms :
    (Instr.ldt 1 3 31).WellFormed ∧ (Instr.setn 31).WellFormed := by decide

/-! ## Decoding: words written out from rules R52 and R53, every command once -/

theorem test_decode_add : decode 0b00000001001100010010000000000000 = .ok (.add 3 1 2) := by decide
theorem test_decode_sub : decode 0b00000010001100010010000000000000 = .ok (.sub 3 1 2) := by decide
theorem test_decode_lt : decode 0b00000011001100010010000000000000 = .ok (.lt 3 1 2) := by decide
theorem test_decode_addm : decode 0b00000100001100010010000000000000 = .ok (.addm 3 1 2) := by decide
theorem test_decode_subm : decode 0b00000101001100010010000000000000 = .ok (.subm 3 1 2) := by decide
theorem test_decode_mulm : decode 0b00000110001100010010000000000000 = .ok (.mulm 3 1 2) := by decide
theorem test_decode_powm : decode 0b00000111000011111110000000000000 = .ok (.powm 0 15 14) := by decide
theorem test_decode_ldt : decode 0b00010000000100000000000001000011 = .ok (.ldt 1 2 3) := by decide
theorem test_decode_ldc : decode 0b00010001001001010000000100000000 = .ok (.ldc 2 .B 5) := by decide
theorem test_decode_stc : decode 0b00010010001001010000000000000000 = .ok (.stc 2 .A 5) := by decide
theorem test_decode_setn : decode 0b00100000000000000000000000000101 = .ok (.setn 5) := by decide
theorem test_decode_brev : decode 0b00100001000000000000000100000000 = .ok (.brev .B) := by decide
theorem test_decode_bfly : decode 0b00100010000000000000000000000001 = .ok (.bfly .A .inv) := by decide
theorem test_decode_scal : decode 0b00100011000000000000000100000000 = .ok (.scal .B) := by decide
theorem test_decode_ntt : decode 0b00100100000000000000000100000000 = .ok (.ntt .B .fwd) := by decide
theorem test_decode_pmul : decode 0b00100101000000000000001000000000 = .ok (.pmul .A .B) := by decide
theorem test_decode_norm : decode 0b00110000000000000000000000000000 = .ok (.norm .A) := by decide
theorem test_decode_trim : decode 0b00110001000000000000000100000000 = .ok (.trim .B) := by decide

/-- Rule R57: the all-zero word, the all-ones word, and a listed opcode with a must-be-zero bit set
(for `SCAL` the direction bit, rule R106). -/
theorem test_decode_refuses : decode 0 = .error .unknownOpcode ∧ decode 0xFFFFFFFF = .error .unknownOpcode ∧
    decode 0x01312001 = .error .nonZeroField ∧ decode 0x23000001 = .error .nonZeroField := by decide

/-- Rule R61: the pseudo-commands are the words of the commands they expand to. -/
theorem test_pseudo : decode 0x24000000 = .ok (Instr.fntt .A) ∧ decode 0x24000101 = .ok (Instr.intt .B) ∧
    decode 0x06311000 = .ok (Instr.sqrm 3 1) := by decide

/-- Rule R60: the text of a command. -/
theorem test_text : asmText (.ldc 2 .B 5) = "LDC x2, B, (x5)" ∧ asmText (.powm 0 15 14) = "POWM x0, x15, x14" ∧
    asmText (.ldt 1 2 3) = "LDT x1, ILEN, 3" ∧ asmText (.bfly .A .inv) = "BFLY A, INV" := by decide

/-! ## The modular arithmetic unit: 95_test_vectors.md 2.1 -/

/-- T-MAU-1 -/
theorem test_add_not_reduced :
    after (runCommand 0x01312000 (regs 998244352 998244352)) (·.getX 3) = some 1996488704 := by decide
/-- T-MAU-2 -/
theorem test_add_wraps : after (runCommand 0x01312000 (regs 0xFFFFFFFF 1)) (·.getX 3) = some 0 := by decide
/-- T-MAU-4 -/
theorem test_sub_wraps : after (runCommand 0x02312000 (regs 5 7)) (·.getX 3) = some 0xFFFFFFFE := by decide
/-- T-MAU-7 -/
theorem test_lt_true : after (runCommand 0x03312000 (regs 998244352 998244353)) (·.getX 3) = some 1 := by decide
/-- T-MAU-9: not a signed comparison. -/
theorem test_lt_unsigned : after (runCommand 0x03312000 (regs 0xFFFFFFFF 0)) (·.getX 3) = some 0 := by decide
/-- T-MAU-11 -/
theorem test_addm_reduces :
    after (runCommand 0x04312000 (regs 998244352 998244352)) (·.getX 3) = some 998244351 := by decide
/-- T-MAU-30 -/
theorem test_addm_range : after (runCommand 0x04312000 (regs 998244353 0)) (·.fault) = some 3 := by decide
/-- T-MAU-15 -/
theorem test_subm_borrows : after (runCommand 0x05312000 (regs 5 7)) (·.getX 3) = some 998244351 := by decide
/-- T-MAU-31: the second operand is checked too. -/
theorem test_subm_range : after (runCommand 0x05312000 (regs 0 0xFFFFFFFF)) (·.fault) = some 3 := by decide
/-- T-MAU-18 -/
theorem test_mulm : after (runCommand 0x06312000 (regs 123456789 987654321)) (·.getX 3) = some 263684735 := by
  decide
/-- Rule R80: source and destination the same register. -/
theorem test_mulm_in_place : after (runCommand 0x06111000 (regs 7 0)) (·.getX 1) = some 49 := by decide
/-- T-MAU-28: the exponent is not reduced. -/
theorem test_powm : after (runCommand 0x07312000 (regs 2 0xFFFFFFFF)) (·.getX 3) = some 688531107 := by decide +kernel
/-- T-MAU-32: the base is checked even when the exponent is 0. -/
theorem test_powm_range : after (runCommand 0x07312000 (regs 998244353 0)) (·.fault) = some 3 := by decide

/-! ## Table and moves -/

/-- The example of rule R94. -/
theorem test_ldt : after (runCommand 0x10100042 State.reset) (·.getX 1) = some 748683265 := by decide
/-- Rule R94: table 3 does not exist. -/
theorem test_ldt_no_table :
    after (runCommand 0x10100060 (regs 5 0)) (fun t => (t.fault, t.getX 1)) = some (4, 5) := by decide
/-- The example of rule R131, index and destination in one register. -/
theorem test_ldc : after (exec (.ldc 1 .B 1) ((regs 3 0).setWord .B 3 7)) (·.getX 1) = some 7 := by decide
/-- Rule R131: the first index past the bank. -/
theorem test_ldc_outside :
    after (exec (.ldc 2 .A 1) (regs 8388624 9)) (fun t => (t.fault, t.getX 2)) = some (4, 9) := by decide
/-- The example of rule R132. -/
theorem test_stc : after (exec (.stc 2 .A 1) (regs 0 81)) (·.word .A 0) = some 81 := by decide
/-- Rule R132: the first index past the bank. -/
theorem test_stc_outside :
    after (exec (.stc 2 .B 1) (regs 8388624 9)) (fun t => (t.fault, t.bankB)) = some (4, Memory.blank) := by decide

/-! ## The transform engine -/

/-- The example of rule R102. -/
theorem test_setn : after (runCommand 0x20000005 State.reset) (·.length) = some 32 := by decide
/-- Rule R102: `F_SIZE`, and `LOGN` keeps its value. -/
theorem test_setn_size : after (runCommand 0x20000018 (bankWith 3 .A [])) (fun t => (t.fault, t.logn)) = some (2, 3) := by
  decide
/-- The example of rule R103. -/
theorem test_brev : after (runCommand 0x21000000 (bankWith 3 .A [0, 1, 2, 3, 4, 5, 6, 7])) (·.array .A) =
    some [0, 4, 2, 6, 1, 5, 3, 7] := by decide
/-- The example of rule R105. -/
theorem test_bfly : after (runCommand 0x22000000 (bankWith 2 .A [1, 3, 2, 4])) (·.array .A) =
    some [10, 173167434, 998244351, 825076915] := by decide
/-- Program P7: the inverse direction. -/
theorem test_bfly_inverse :
    after (runCommand 0x22000001 (bankWith 2 .A [10, 998244351, 173167434, 825076915])) (·.array .A) =
    some [4, 8, 12, 16] := by decide
/-- The example of rule R106. -/
theorem test_scal : after (runCommand 0x23000000 (bankWith 2 .A [4, 8, 12, 16])) (·.array .A) =
    some [1, 2, 3, 4] := by decide +kernel
/-- Rule R100: a word that is no field element. -/
theorem test_scal_range : after (runCommand 0x23000000 (bankWith 0 .A [998244353])) (·.fault) = some 3 := by decide
/-- Program P2: the forward transform of the digits of 34. -/
theorem test_ntt : after (runCommand 0x24000100 (bankWith 2 .B [4, 3, 0, 0])) (·.array .B) =
    some [7, 738493203, 1, 259751158] := by decide
/-- The example of rule R107. -/
theorem test_ntt_inverse : after (runCommand 0x24000001 (bankWith 1 .A [81, 81])) (·.array .A) =
    some [81, 0] := by decide +kernel
/-- Program P2: the product goes to the first-named bank. -/
theorem test_pmul :
    after (runCommand 0x25000200 ((bankWith 1 .A [911660637, 1]).setArray .B [738493203, 1]))
      (fun t => (t.array .A, t.array .B)) = some ([132407178, 1], [738493203, 1]) := by decide
/-- Rule R130: the second-named bank is checked too. -/
theorem test_pmul_range :
    after (runCommand 0x25000200 (bankWith 0 .B [0xFFFFFFFF])) (fun t => (t.fault, t.bankB == (bankWith 0 .B [0xFFFFFFFF]).bankB)) =
      some (3, true) := by decide

/-! ## The carry pipeline -/

/-- Program P6: the array grows. -/
theorem test_norm_grows :
    after (runCommand 0x30000000 (bankWith 0 .A [998244352])) (fun t => (t.bankA.readArray 10, t.len)) =
      some ([2, 5, 3, 4, 4, 2, 8, 9, 9, 0], 9) := by decide +kernel
/-- Program P2: a carry inside the array. -/
theorem test_norm_carries :
    after (runCommand 0x30000000 (bankWith 2 .A [8, 10, 3, 0])) (fun t => (t.array .A, t.len)) =
      some ([8, 0, 4, 0], 4) := by decide +kernel
/-- The example of rule R122. -/
theorem test_trim : after (runCommand 0x31000000 ((bankWith 2 .A [8, 0, 4, 0]).setLen 4)) (·.len) = some 3 := by decide
/-- Rule R122: `LEN = 0` stays 0. -/
theorem test_trim_empty : after (runCommand 0x31000000 State.reset) (·.len) = some 0 := by decide

/-! ## The port, faults and reset -/

/-- T-HOST-12: the unused bits of `LOGN` read as 0. -/
theorem test_read_logn :
    after (step ((pendingOne (.read 0x3000012)).setLogn 5)) (·.replies) = some [5] := by decide
/-- T-HOST-9: there is no entry 24. -/
theorem test_read_no_entry : after (step (pendingOne (.read 0x2000018))) (·.fault) = some 4 := by decide
/-- T-HOST-7 and T-HOST-8: the last word of bank `A`, and the address after it. -/
theorem test_write_bank_end :
    after (step (pendingOne (.write 0x80000F 6))) (fun t => (t.word .A 8388623, t.fault)) = some (6, 0) ∧
    after (step (pendingOne (.write 0x800010 6))) (fun t => (t.bankA, t.fault)) = some (Memory.blank, 4) := by decide
/-- T-HOST-5 and T-HOST-6: the largest `LEN`, and one more. -/
theorem test_write_len :
    after (step (pendingOne (.write 0x3000013 8388624))) (fun t => (t.len, t.fault)) = some (8388624, 0) ∧
    after (step (pendingOne (.write 0x3000013 8388625))) (fun t => (t.len, t.fault)) = some (0, 4) := by decide
/-- T-FLT-6: an illegal word to a halted unit is discarded. -/
theorem test_halted_discards :
    after (step (haltedOne (.write 0x3000010 0xFFFFFFFF))) (·.fault) = some 2 := by decide
/-- T-FLT-5: `FAULT` can be read while halted. -/
theorem test_halted_reads : after (step (haltedOne (.read 0x3000011))) (·.replies) = some [2] := by decide
/-- T-FLT-7: what `Reset` leaves. -/
theorem test_reset : after (step (haltedOne .reset)) (fun t => (t.fault, t.logn, t.len)) = some (0, 0, 0) := by decide
/-- A command written to `CMD` runs as the first step after reset (rule R17). -/
theorem test_fetch : after (step (State.reset.withFetchWord 32 0x20000005)) (·.logLength) = some 5 := by decide
/-- Rule R135: `logn` for 9 + 9 digits is 5 (T-SRC-2), for 1 + 1 it is 1 (T-SRC-1). -/
theorem test_choose : chooseLogn 9 9 = some 5 ∧ chooseLogn 1 1 = some 1 ∧ chooseLogn 8388608 1 = none := by decide
/-- Rules R134 and R137: "12" parses to 2, 1; the empty string and a letter are refused. -/
theorem test_parse : parse ['1', '2'] = some [2, 1] ∧ parse [] = none ∧ parse ['1', 'a'] = none := by decide

/-! ## Witnesses: for each statement with hypotheses, a state and operands that meet them -/

theorem witness_DecodeInvertsEncode : (Instr.ldt 15 3 31).WellFormed ∧ (Instr.setn 31).WellFormed := by decide
theorem witness_EncodeInvertsDecode : decode 0x10F0007F = .ok (.ldt 15 3 31) := by decide
theorem witness_OpcodeMapDecides (o : Op) : (0 : Word) &&& o.mask ≠ o.pattern := by cases o <;> decide
theorem witness_StepExecutesTheCommandWritten :
    let s := pendingOne (.write cmdAddr (encode (.setn 31)))
    s.fault = 0 ∧ s.pending = [.write cmdAddr (encode (.setn 31))] ∧ (Instr.setn 31).WellFormed ∧
      decode (encode (.setn 31)) = .ok (.setn 31) := by decide
theorem witness_IllegalWordFaults (o : Op) :
    (pendingOne (.write cmdAddr 0x23000001)).fault = 0 ∧
    (pendingOne (.write cmdAddr 0x23000001)).pending = [.write cmdAddr 0x23000001] ∧
    (0x23000001 : Word) &&& o.mask ≠ o.pattern := by cases o <;> decide
theorem witness_IdleUnitWaits : State.reset.pending = [] := rfl
theorem witness_ModularArithmetic :
    ((regs 998244352 998244352).getX 1).toNat < MOD ∧ ((regs 998244352 998244352).getX 2).toNat < MOD := by decide
theorem witness_ModularExponentiation : ((regs 998244352 0xFFFFFFFF).getX 1).toNat < MOD := by decide
/-- Operands at the upper end of the field, then each way to break the check: the first operand, the
second, the base of `POWM`. -/
theorem witness_RangePrecondition :
    ((regs 998244352 998244352).getX 1).toNat < MOD ∧ ((regs 998244352 998244352).getX 2).toNat < MOD ∧
    MOD ≤ ((regs 998244353 0).getX 1).toNat ∧ MOD ≤ ((regs 0 998244353).getX 2).toNat ∧
    MOD ≤ ((regs 0xFFFFFFFF 0).getX 1).toNat := by decide
/-- A non-zero base and the base 0. -/
theorem witness_InverseByFermat :
    let s := regs 8 998244351
    let z := regs 0 998244351
    (s.getX 1).toNat < MOD ∧ (s.getX 2).toNat = MOD - 2 ∧ s.getX 1 ≠ 0 ∧
    (z.getX 1).toNat < MOD ∧ (z.getX 2).toNat = MOD - 2 ∧ z.getX 1 = 0 := by decide
theorem witness_TableLoad : ((2 ≤ 2 ∧ 23 ≤ 23) ∧ (3 = 3 ∨ 23 < 0) ∧ (0 = 3 ∨ 23 < 24) : Prop) := by decide
theorem witness_TableLaws : ((1 ≤ 1 ∧ 23 ≤ 23 ∧ 1 ≤ 23) ∧ (2 ≤ 2 ∧ 0 ≤ 23) : Prop) := by decide
/-- The last index of the bank and the first past it. -/
theorem witness_LoadCoefficient :
    ((regs 8388623 0).getX 1).toNat < DEPTH ∧ DEPTH ≤ ((regs 8388624 0).getX 1).toNat := by decide
theorem witness_StoreCoefficient :
    ((regs 8388623 0).getX 1).toNat < DEPTH ∧ DEPTH ≤ ((regs 0xFFFFFFFF 0).getX 1).toNat := by decide
theorem witness_LoadAfterStore : ((regs 8388623 0).getX 1).toNat < DEPTH := by decide
theorem witness_SetLength : ((23 ≤ 23) ∧ 23 < 24 : Prop) := by decide
theorem witness_BitReversalPermutes : (bankWith 23 .A []).logLength ≤ 23 := by decide
theorem witness_BitReversalTwiceRestores : (bankWith 2 .A [1, 2, 3, 0xFFFFFFFF]).Inv := by decide
theorem witness_ButterflyStages :
    let s := bankWith 2 .A [1, 3, 2, 998244352]
    s.logLength ≤ 23 ∧ FieldArray s .A := by decide
theorem witness_SingleButterfly :
    let s := bankWith 1 .B [0, 998244352]
    s.logLength = 1 ∧ FieldArray s .B := by decide
theorem witness_InverseScaling :
    let s := bankWith 0 .A [998244352]
    s.logLength ≤ 23 ∧ FieldArray s .A := by decide
theorem witness_TransformIsItsSteps :
    let s := bankWith 2 .B [1, 2, 3, 998244352]
    s.Inv ∧ FieldArray s .B := by decide
theorem witness_TransformIsTheDft :
    let s := bankWith 2 .A [1, 2, 3, 998244352]
    s.logLength ≤ 23 ∧ FieldArray s .A := by decide
theorem witness_TransformRoundTrip :
    let s := bankWith 3 .A [1, 2, 3, 998244352, 5]
    s.Inv ∧ FieldArray s .A := by decide
/-- The digits of 12 and 34, two and two of them in an array of four words. -/
theorem witness_ConvolutionTheorem :
    let s := (bankWith 2 .A [2, 1, 0, 0]).setArray .B [4, 3, 0, 0]
    s.logLength ≤ 23 ∧ FieldArray s .A ∧ FieldArray s .B ∧ 2 + 2 ≤ s.length ∧
      (∀ j, j < s.length → 2 ≤ j → s.word .A j = 0) ∧ (∀ j, j < s.length → 2 ≤ j → s.word .B j = 0) := by decide
theorem witness_LengthOneIsTheIdentity :
    let s := bankWith 0 .A [998244352]
    let u := bankWith 0 .A [998244353]
    s.Inv ∧ s.logn = 0 ∧ (s.word .A 0).toNat < MOD ∧ u.Inv ∧ u.logn = 0 ∧ MOD ≤ (u.word .A 0).toNat := by decide
theorem witness_PointwiseProduct :
    let s := (bankWith 1 .A [9, 998244352]).setArray .B [9, 1]
    s.logLength ≤ 23 ∧ FieldArray s .A ∧ FieldArray s .B := by decide
/-- The last word of the array, of the one bank and of the other. -/
theorem witness_VectorRangeFault :
    let s := bankWith 1 .A [0, 998244353]
    s.logLength ≤ 23 ∧ ¬ FieldArray s .A ∧ FieldArray s .B ∧ FieldArray (bankWith 1 .A [0, 998244352]) .A := by
  decide
/-- All premises at once, with `SCAL` of the digits 4, 8, 12, 16. -/
theorem witness_FieldElementsStayFieldElements :
    let s := bankWith 2 .A [4, 8, 12, 16]
    s.fault = 0 ∧ FieldArray s .A ∧ after (exec (.scal .A) s) (·.fault) = some 0 := by decide
theorem witness_NormalizeKeepsTheValue : (bankWith 23 .A [0xFFFFFFFF]).logLength ≤ 23 := by decide
theorem witness_TrimDropsLeadingZeros :
    (State.reset.setLen 8388624).len.toNat ≤ DEPTH ∧ 1 ≤ (State.reset.setLen 8388624).len.toNat ∧
    (State.reset.setLen 1).len.toNat ≤ 1 := by decide
theorem witness_NormalizeAndTrimIsCanonical : (bankWith 1 .B [0xFFFFFFFF, 0]).logLength ≤ 23 := by decide
theorem witness_BeyondTheBank :
    23 < (bankWith 24 .A []).logLength ∧ DEPTH < (State.reset.setLen 8388625).len.toNat := by decide
/-- One command for each register and memory that changes. -/
theorem witness_OnlyTheNamedCommandsWrite :
    after (exec (.setn 5) State.reset) (fun t => t.logn != State.reset.logn) = some true ∧
    after (exec (.trim .A) (State.reset.setLen 2)) (fun t => t.len != 2) = some true ∧
    after (exec (.add 3 1 2) (regs 5 7)) (fun t => t.getX 3 != 0) = some true ∧
    after (exec (.stc 2 .A 1) (regs 0 81)) (fun t => t.word .A 0 != 0) = some true := by decide
theorem witness_StepKeepsTheInvariant :
    (bankWith 23 .A [1, 0, 0xFFFFFFFF]).Inv ∧ ((takeFault .addr State.reset).setLen 8388624).Inv := by decide
theorem witness_HaltedUnitDiscards :
    let s := haltedOne (.read 0x3000011)
    s.fault ≠ 0 ∧ s.pending = [.read 0x3000011] ∧ Transaction.read 0x3000011 ≠ .reset ∧
      readPlace s (placeOf 0x3000011) = some 2 ∧
      Transaction.write 0x3000010 0 ≠ .reset ∧ (haltedOne (.write 0x3000010 0)).fault ≠ 0 := by decide
theorem witness_OnlyResetEndsTheHalt :
    let s := haltedOne (.write 0x3000010 0x20000005)
    s.fault ≠ 0 ∧ Transaction.reset ∉ s.pending ∧ steps 1 s = some (takeFault .size State.reset) := by decide
theorem witness_ResetTransaction : (haltedOne .reset).pending = [.reset] := rfl
/-- Each kind of legal read, at the last address of its range; the ranges do not overlap. -/
theorem witness_LegalReads :
    (8388623 < DEPTH ∧ (0x80000F : PortAddr).toNat = 8388623) ∧
    (0x180000F : PortAddr).toNat = 0x1000000 + 8388623 ∧
    (0x2000057 : PortAddr).toNat = 0x2000000 + 32 * 2 + 23 ∧
    (0x300000F : PortAddr).toNat = 0x3000000 + (15 : Reg).val ∧
    ((0x3000011 : PortAddr).toNat = 0x3000011 ∧ (2 : Word).toNat = (haltedOne .reset).fault.toNat) ∧
    ((0x3000012 : PortAddr).toNat = 0x3000012 ∧ (23 : Word).toNat = (bankWith 23 .A []).logn.toNat) ∧
    (0x3000013 : PortAddr).toNat = 0x3000013 ∧
    (pendingOne (.read 0x3000013)).pending = [.read 0x3000013] := by decide
/-- Each kind of legal write, at the last address of its range and the largest `LEN`. -/
theorem witness_LegalWrites :
    (pendingOne (.write 0x80000F 6)).fault = 0 ∧
    (8388623 < DEPTH ∧ (0x80000F : PortAddr).toNat = (if BankId.A = .A then 0 else 0x1000000) + 8388623) ∧
    (0x180000F : PortAddr).toNat = (if BankId.B = .A then 0 else 0x1000000) + 8388623 ∧
    (0x300000F : PortAddr).toNat = 0x3000000 + (15 : Reg).val ∧
    (0x3000013 : PortAddr).toNat = 0x3000013 ∧ (8388624 : Word).toNat ≤ DEPTH := by decide
/-- The first and the last address past each bank, the entries that do not exist, the first and the last
address past the registers, and the accesses without the right. -/
theorem witness_IllegalAccessFaults :
    (pendingOne (.read 0x3000010)).fault = 0 ∧ (0x3000010 : PortAddr).toNat = 0x3000010 ∧
    Unmapped 0x800010 ∧ Unmapped 0xFFFFFF ∧ Unmapped 0x1800010 ∧ Unmapped 0x1FFFFFF ∧
    Unmapped 0x2000018 ∧ Unmapped 0x2000060 ∧ Unmapped 0x2000080 ∧ Unmapped 0x3000014 ∧ Unmapped 0x3FFFFFF ∧
    0x2000000 ≤ (0x2000000 : PortAddr).toNat ∧ (0x2FFFFFF : PortAddr).toNat < 0x3000000 ∧
    DEPTH < (8388625 : Word).toNat := by
  have d : DEPTH = 8388624 := rfl
  refine ⟨rfl, rfl, ?_, ?_, ?_, ?_, ?_, ?_, ?_, ?_, ?_, by decide, by decide, by decide⟩
  · exact .inl (by decide)
  · exact .inl (by decide)
  · exact .inr (.inl (by decide))
  · exact .inr (.inl (by decide))
  · exact .inr (.inr (.inl ⟨by decide, by decide, fun t k ht hk => by
      show 0x2000018 ≠ _; omega⟩))
  · exact .inr (.inr (.inl ⟨by decide, by decide, fun t k ht hk => by
      show 0x2000060 ≠ _; omega⟩))
  · exact .inr (.inr (.inl ⟨by decide, by decide, fun t k ht hk => by
      show 0x2000080 ≠ _; omega⟩))
  · exact .inr (.inr (.inr (by decide)))
  · exact .inr (.inr (.inr (by decide)))
theorem witness_WritesAreIdempotent :
    readPlace State.reset (placeOf 0x3000013) = some 0 ∧ (0x80000F : PortAddr) ≠ cmdAddr ∧ hostWrite 0x80000F 6 State.reset = .next (State.reset.setWord .A 8388623 6) :=
  ⟨by decide, by decide, rfl⟩
theorem witness_ReadReturnsTheLastWrite :
    let s := State.reset.setPending [.write 0x180000F 6, .read 0x180000F]
    s.fault = 0 ∧ (0x1000000 ≤ (0x180000F : PortAddr).toNat ∧ (0x180000F : PortAddr).toNat < 0x1000000 + DEPTH) ∧
      (0x80000F : PortAddr).toNat < DEPTH ∧ s.pending = [.write 0x180000F 6, .read 0x180000F] := by decide
theorem witness_MultiplicationIsExact :
    State.reset.fault = 0 ∧ (Nat.toDigits 10 123456789).length + (Nat.toDigits 10 987654321).length ≤ 2 ^ 23 := by
  decide
/-- Two non-zero numbers, and a zero. -/
theorem witness_ProductLength :
    State.reset.fault = 0 ∧ (Nat.toDigits 10 12).length + (Nat.toDigits 10 34).length ≤ 2 ^ 23 ∧
    12 ≠ 0 ∧ 34 ≠ 0 ∧ (Nat.toDigits 10 0).length + (Nat.toDigits 10 123).length ≤ 2 ^ 23 ∧ (0 = 0 ∨ 123 = 0) := by
  decide
theorem witness_ReadBackAnswersTheDigits :
    let s := ((bankWith 1 .A [1, 8]).setLen 2).setPending (readBack 2)
    s.fault = 0 ∧ s.len.toNat ≤ DEPTH ∧ s.pending = readBack s.len.toNat := by decide

end Sys2Proof.Tests
end

section
/-! The parameters of rule R5 against the constraints of rule R6. -/

namespace Sys2Proof.Machine

/-- Rule R6 (d): `G` is the forward root of the longest transform, so its order is that root's. -/
theorem orderOf_G : orderOf (G : ZMod MOD) = 2 ^ 23 := by
  have hroot : root .fwd 23 = (G : ZMod MOD) := by
    rw [root, rootTable, fieldElem_rom_root, Nat.sub_self, pow_zero, pow_one]
  rw [← hroot]
  exact orderOf_root .fwd 23 le_rfl

/-- Rule R6 (e), on the numbers. -/
theorem GINV_mul_G_mod : GINV * G % MOD = 1 := by
  apply mod_of_natCast_eq one_lt_MOD
  rw [Nat.cast_mul, mul_comm, G_mul_GINV, Nat.cast_one]

/-- Rule R6 (b): the powers of two in `MOD - 1` bound the transform length by `2^23`. -/
theorem MOD_sub_one_eq : MOD - 1 = 2 ^ 23 * 119 := by decide

/-- Settles O17: primality by Lucas' test, the order of `G` by that of the table's longest root. -/
theorem parametersMeetTheConstraints : Obligations.ParametersMeetTheConstraints := by
  have large : 81 * 2 ^ 22 < MOD := by decide
  have nMax : Config.unit.nMax = 2 ^ LOGNMAX := by decide
  have depth : 2 ^ 23 + 9 ≤ DEPTH := by decide
  exact ⟨modulus_prime, ⟨119, MOD_sub_one_eq, by decide⟩, MOD_lt, orderOf_G, GINV_mul_G_mod, large, nMax, depth⟩

end Sys2Proof.Machine
end

section
/-! The invariant of rules R18 to R20: every transaction the host can issue keeps it. -/

namespace Sys2Proof.Machine

theorem State.Inv.setPending {s : State} (h : s.Inv) (ts : List Transaction) : (s.setPending ts).Inv := h

/-- A word written to `CMD` ends in a state that meets the invariant, whether it decodes or not. -/
theorem runCommand_inv {s : State} (hs : s.Inv) (c : Word) : ∃ t, runCommand c s = .next t ∧ t.Inv := by
  unfold runCommand
  split
  · rename_i i _
    obtain ⟨t, ht⟩ := exec_total hs i
    exact ⟨t, ht, (exec_effect i ht).inv hs⟩
  · exact ⟨_, rfl, hs.takeFault .illegal⟩

theorem hostRead_inv {s : State} (hs : s.Inv) (ha : PortAddr) : (hostRead ha s).Inv := by
  cases hread : readPlace s (placeOf ha) with
  | some v => rw [hostRead_legal hread]; exact hs
  | none =>
    have replied : ((reply (Config.freeWord s.draws 0) s).addDraws 1).Inv := hs
    rw [hostRead_illegal hread, illegalAccess]
    split
    · exact replied
    · exact replied.takeFault .addr

/-- A write never stops the unit: bank addresses stay below `DEPTH` and `LEN` is checked against it. -/
theorem hostWrite_inv {s : State} (hs : s.Inv) (ha : PortAddr) (v : Word) :
    ∃ t, hostWrite ha v s = .next t ∧ t.Inv := by
  by_cases hf : s.fault = 0
  · have faulted : ∃ t, Host.Outcome.next (takeFault .addr s) = (.next t : Result) ∧ t.Inv :=
      ⟨_, rfl, hs.takeFault .addr⟩
    rw [hostWrite_running ha v hf]
    cases hplace : placeOf ha with
    | bank b i => exact ⟨_, rfl, hs.setBank b (Memory.write_wf (hs.bank b) (placeOf_bank_lt hplace) v)⟩
    | x r => exact ⟨_, rfl, hs⟩
    | cmd => exact runCommand_inv hs v
    | len =>
      obtain ⟨hlogn, -, hrest⟩ := hs
      dsimp only
      split
      · rename_i hv
        exact ⟨_, rfl, hlogn, hv, hrest⟩
      · exact faulted
    | rom t k => exact faulted
    | fault => exact faulted
    | logn => exact faulted
    | nothing => exact faulted
  · exact ⟨s, hostWrite_halted ha v hf, hs⟩

/-- `Reset` meets the invariant from any state: its banks list no word. -/
theorem hostReset_inv (s : State) : (hostReset s).Inv :=
  ⟨Nat.zero_le _, Nat.zero_le _, Nat.zero_le _, Memory.wf_of_cells_nil rfl, Memory.wf_of_cells_nil rfl⟩

theorem perform_inv {s : State} (hs : s.Inv) (tr : Transaction) : ∃ t, perform tr s = .next t ∧ t.Inv := by
  cases tr with
  | read ha => exact ⟨_, rfl, hostRead_inv hs ha⟩
  | write ha v => exact hostWrite_inv hs ha v
  | reset => exact ⟨_, rfl, hostReset_inv s⟩

/-- Settles O40: a step waits or performs one transaction, and each keeps the invariant. -/
theorem stepKeepsTheInvariant : Obligations.StepKeepsTheInvariant := by
  intro s hs
  cases hp : s.pending with
  | nil => exact ⟨s, by simp only [step, serve, hp], hs⟩
  | cons tr rest =>
    rw [step_of_pending hp]
    exact perform_inv (hs.setPending rest) tr

/-- Settles O45: the values of rule R25 stand in the definition. -/
theorem resetValues : Obligations.ResetValues := ⟨rfl, rfl, rfl⟩

end Sys2Proof.Machine
end

section
/-! A vector command that takes no fault replaced its array (rules R26, R100). -/

namespace Sys2Proof.Machine

/-- A vector command that ends without a fault passed its range check, and its operation replaced the array. -/
theorem vectorOp_eq_setArray {bd : BankId} {ok : Bool} {f : List Word → List Word} {s t : State}
    (h : vectorOp bd ok f s = .next t) (ht : t.fault = 0) : t = s.setArray bd (f (s.array bd)) := by
  unfold vectorOp at h
  split_ifs at h <;> cases h
  · rfl
  · exact absurd ((rangeFaultArray_frame bd s).1.symm.trans ht) (by decide)

/-- If the operation answers as many words as it was given, all of them field elements, the array is one
of field elements after the command. -/
theorem FieldArray.of_vectorOp {bd : BankId} {ok : Bool} {f : List Word → List Word} {s t : State}
    (hlen : (f (s.array bd)).length = s.length)
    (hlt : ∀ p, p < s.length → ((f (s.array bd)).getD p 0).toNat < MOD)
    (h : vectorOp bd ok f s = .next t) (ht : t.fault = 0) : FieldArray t bd := by
  rw [vectorOp_eq_setArray h ht]
  exact FieldArray.setArray hlen hlt

/-- Settles O34: bit reversal moves field elements, the other commands store results of the modular
operations. -/
theorem fieldElementsStayFieldElements : Obligations.FieldElementsStayFieldElements := by
  intro s t bd bs dir i _ hi hf h ht
  have hlen : (s.array bd).length = 2 ^ s.logLength := s.length_array bd
  have hin := hf.getD_array
  rcases hi with rfl | rfl | rfl | rfl | rfl
  · exact .of_vectorOp ((length_brevArray _ _).trans hlen) (brevArray_lt _ _ hlen hin) h ht
  · exact .of_vectorOp (length_bflyArray _ _ _ hlen) (bflyArray_lt _ _ _ hlen hin) h ht
  · refine .of_vectorOp ((length_scaleArray _ _).trans hlen) (fun p hp => ?_) h ht
    rw [getD_scaleArray _ _ _ (by simpa using hp)]
    exact mulMod_lt _ _
  · exact .of_vectorOp (length_nttArray _ _ _ hlen) (nttArray_lt _ _ _ hlen hin) h ht
  · refine .of_vectorOp (f := fun a => pmulArray a (s.array bs)) (by simp) (fun p hp => ?_) h ht
    rw [getD_pmulArray _ _ _ (by simpa using hp) (by simpa using hp)]
    exact mulMod_lt _ _

end Sys2Proof.Machine
end

section
/-! What a command may write, read off its constructor and operands, and that it writes nothing else
(rules R12, R18, R19, R30 and R46). -/

namespace Sys2Proof.Machine

/-- The places a command may write: at most one scalar register, at most one bank, `LOGN`, `LEN`. -/
structure Footprint where
  reg : Option Reg := none
  bank : Option BankId := none
  logn : Bool := false
  len : Bool := false

/-- The footprint of each row of rule R53. -/
def footprint : Instr → Footprint
  | .add rd _ _ | .sub rd _ _ | .lt rd _ _ | .addm rd _ _ | .subm rd _ _ | .mulm rd _ _ | .powm rd _ _
  | .ldt rd _ _ | .ldc rd _ _ => { reg := some rd }
  | .stc _ bd _ | .brev bd | .bfly bd _ | .scal bd | .ntt bd _ | .pmul bd _ => { bank := some bd }
  | .setn _ => { logn := true }
  | .norm bd => { bank := some bd, len := true }
  | .trim _ => { len := true }

/-- From `s` to `t` nothing outside the footprint has changed, `FAULT`, the draw counter and the host's
side of the port aside. -/
structure WritesWithin (p : Footprint) (s t : State) : Prop where
  reg : ∀ r, t.getX r ≠ s.getX r → p.reg = some r
  word : ∀ b j, t.word b j ≠ s.word b j → p.bank = some b
  logn : t.logn ≠ s.logn → p.logn = true
  len : t.len ≠ s.len → p.len = true

/-! ## The updates -/

theorem WritesWithin.takeFault {p : Footprint} {s t : State} (c : FaultCode) (h : WritesWithin p s t) :
    WritesWithin p s (takeFault c t) := ⟨h.reg, by simpa using h.word, h.logn, h.len⟩

theorem WritesWithin.addDraws {p : Footprint} {s t : State} (k : Nat) (h : WritesWithin p s t) :
    WritesWithin p s (t.addDraws k) := ⟨h.reg, by simpa using h.word, h.logn, h.len⟩

theorem WritesWithin.refl (p : Footprint) (s : State) : WritesWithin p s s :=
  ⟨fun _ h => absurd rfl h, fun _ _ h => absurd rfl h, fun h => absurd rfl h, fun h => absurd rfl h⟩

theorem writesWithin_setX (rd : Reg) (s : State) (v : Word) :
    WritesWithin { reg := some rd } s (s.setX rd v) where
  reg r h := by
    by_contra hr
    exact h (State.getX_setX_ne s v fun e => hr (congrArg some e.symm))
  word := by simp
  logn := by simp
  len := by simp

theorem writesWithin_setBank {bd : BankId} (s : State) (m : Memory) :
    WritesWithin { bank := some bd } s (s.setBank bd m) where
  reg := by simp
  word b j h := by
    by_contra hb
    exact h (congrArg (·.read j) (State.bank_setBank_ne s m fun e => hb (congrArg some e.symm)))
  logn := by simp
  len := by simp

theorem writesWithin_setLogn (s : State) (v : BitVec 5) : WritesWithin { logn := true } s (s.setLogn v) :=
  { WritesWithin.refl {} s with word := by simp, logn := fun _ => rfl }

theorem WritesWithin.setLen {p : Footprint} {s t : State} (v : Word) (h : WritesWithin p s t) :
    WritesWithin { p with len := true } s (t.setLen v) :=
  ⟨h.reg, by simpa using h.word, h.logn, fun _ => rfl⟩

/-! ## The commands -/

theorem checkedOp_writesWithin {ok : Word → Word → Bool} {f : Word → Word → Word} {rd ra rb : Reg}
    {s t : State}
    (h : checkedOp ok f rd ra rb s = .next t) : WritesWithin { reg := some rd } s t := by
  unfold checkedOp at h
  split at h <;> cases h
  · exact writesWithin_setX _ _ _
  · exact ((writesWithin_setX rd s _).addDraws 1).takeFault .range

theorem vectorOp_writesWithin {bd : BankId} {ok : Bool} {f : List Word → List Word} {s t : State}
    (h : vectorOp bd ok f s = .next t) : WritesWithin { bank := some bd } s t := by
  unfold vectorOp at h
  split_ifs at h <;> cases h
  · exact writesWithin_setBank _ _
  · exact ((writesWithin_setBank s _).addDraws 1).takeFault .range

/-- A command that goes on writes only inside its footprint. -/
theorem exec_writesWithin (i : Instr) {s t : State} (h : exec i s = .next t) :
    WritesWithin (footprint i) s t := by
  have faulted : ∀ (p : Footprint) (c : FaultCode), WritesWithin p s (takeFault c s) :=
    fun p c => (WritesWithin.refl p s).takeFault c
  cases i with
  | add rd ra rb => cases h; exact writesWithin_setX _ _ _
  | sub rd ra rb => cases h; exact writesWithin_setX _ _ _
  | lt rd ra rb => cases h; exact writesWithin_setX _ _ _
  | addm rd ra rb => exact checkedOp_writesWithin h
  | subm rd ra rb => exact checkedOp_writesWithin h
  | mulm rd ra rb => exact checkedOp_writesWithin h
  | powm rd ra rb => exact checkedOp_writesWithin h
  | ldt rd x k =>
    simp only [exec, execLdt] at h
    split at h <;> cases h
    · exact writesWithin_setX _ _ _
    · exact faulted _ _
  | ldc rd bd ra =>
    simp only [exec, execLdc] at h
    split at h <;> cases h
    · exact writesWithin_setX _ _ _
    · exact faulted _ _
  | stc rd bd ra =>
    simp only [exec, execStc] at h
    split at h <;> cases h
    · exact writesWithin_setBank _ _
    · exact faulted _ _
  | setn l =>
    simp only [exec, execSetn] at h
    split at h <;> cases h
    · exact faulted _ _
    · exact writesWithin_setLogn _ _
  | brev bd => exact vectorOp_writesWithin h
  | bfly bd dir => exact vectorOp_writesWithin h
  | scal bd => exact vectorOp_writesWithin h
  | ntt bd dir => exact vectorOp_writesWithin h
  | pmul bd bs => exact vectorOp_writesWithin (f := fun a => pmulArray a (s.array bs)) h
  | norm bd =>
    simp only [exec, execNorm] at h
    split at h <;> cases h
    · exact (writesWithin_setBank s _).setLen _
    · exact faulted _ _
  | trim bd =>
    simp only [exec, execTrim] at h
    split at h <;> cases h
    exact (WritesWithin.refl {} s).setLen _

/-! ## The command a footprint belongs to -/

theorem setn_of_footprint {i : Instr} (h : (footprint i).logn = true) : ∃ l, i = .setn l := by
  cases i with
  | setn l => exact ⟨l, rfl⟩
  | _ => cases h

theorem norm_or_trim_of_footprint {i : Instr} (h : (footprint i).len = true) :
    ∃ b, i = .norm b ∨ i = .trim b := by
  cases i with
  | norm bd => exact ⟨bd, .inl rfl⟩
  | trim bd => exact ⟨bd, .inr rfl⟩
  | _ => cases h

theorem registerCommand_of_footprint {i : Instr} {rd : Reg} (h : (footprint i).reg = some rd) :
    (∃ ra rb, i = .add rd ra rb ∨ i = .sub rd ra rb ∨ i = .lt rd ra rb ∨ i = .addm rd ra rb ∨
      i = .subm rd ra rb ∨ i = .mulm rd ra rb ∨ i = .powm rd ra rb) ∨
    (∃ x k, i = .ldt rd x k) ∨ ∃ b ra, i = .ldc rd b ra := by
  cases i <;> cases h <;> simp

theorem bankCommand_of_footprint {i : Instr} {b : BankId} (h : (footprint i).bank = some b) :
    (∃ rd ra, i = .stc rd b ra) ∨ i = .brev b ∨ (∃ d, i = .bfly b d ∨ i = .ntt b d) ∨ i = .scal b ∨
      (∃ c, i = .pmul b c) ∨ i = .norm b := by
  cases i <;> cases h <;> simp

/-- Settles O39: what changes lies in the command's footprint, and the footprint tells the command. -/
theorem onlyTheNamedCommandsWrite : Obligations.OnlyTheNamedCommandsWrite := by
  intro i s t h
  have within := exec_writesWithin i h
  exact ⟨fun hn => setn_of_footprint (within.logn hn), fun hl => norm_or_trim_of_footprint (within.len hl),
    fun rd hr => registerCommand_of_footprint (within.reg rd hr),
    fun b j hb => bankCommand_of_footprint (within.word b j hb)⟩

end Sys2Proof.Machine
end

section
/-! The command port (rules R17 and R62): the decoder reads every encoding back. -/

namespace Sys2Proof

/-- A word whose opcode byte selects a row and which has that row's zeros decodes to the row's command. -/
theorem decode_of_row {c : Word} {o : Op} (hop : opOfByte (fieldOp c) = some o)
    (hz : c &&& o.mask = o.pattern) : decode c = .ok (o.build c) := by
  simp only [decode, hop, if_pos hz]

theorem opOfByte_encode (i : Instr) : opOfByte (fieldOp (encode i)) = some i.op := by
  cases i <;> simp only [encode, fieldOp_wordS, fieldOp_wordT, fieldOp_wordM, fieldOp_wordV] <;> rfl

/-- The encoding has zeros where the row's mask wants them, command by command. -/
theorem encode_and_mask (i : Instr) : encode i &&& i.op.mask = i.op.pattern := by
  cases i with
  | add rd ra rb => exact Laws.EncodeMatchesRow.add rd ra rb
  | sub rd ra rb => exact Laws.EncodeMatchesRow.sub rd ra rb
  | lt rd ra rb => exact Laws.EncodeMatchesRow.lt rd ra rb
  | addm rd ra rb => exact Laws.EncodeMatchesRow.addm rd ra rb
  | subm rd ra rb => exact Laws.EncodeMatchesRow.subm rd ra rb
  | mulm rd ra rb => exact Laws.EncodeMatchesRow.mulm rd ra rb
  | powm rd ra rb => exact Laws.EncodeMatchesRow.powm rd ra rb
  | ldt rd t k => exact Laws.EncodeMatchesRow.ldt rd t k
  | ldc rd bd ra => exact Laws.EncodeMatchesRow.ldc rd bd ra
  | stc rd bd ra => exact Laws.EncodeMatchesRow.stc rd bd ra
  | setn logn => exact Laws.EncodeMatchesRow.setn logn
  | brev bd => exact Laws.EncodeMatchesRow.brev bd
  | bfly bd dir => exact Laws.EncodeMatchesRow.bfly bd dir
  | scal bd => exact Laws.EncodeMatchesRow.scal bd
  | ntt bd dir => exact Laws.EncodeMatchesRow.ntt bd dir
  | pmul bd bs => exact Laws.EncodeMatchesRow.pmul bd bs
  | norm bd => exact Laws.EncodeMatchesRow.norm bd
  | trim bd => exact Laws.EncodeMatchesRow.trim bd

/-- The row rebuilds the command from its encoding; only the immediates need to fit their fields. -/
theorem build_encode (i : Instr) (hi : i.WellFormed) : i.op.build (encode i) = i := by
  cases i with
  | ldt rd t k =>
    obtain ⟨ht, hk⟩ : t < 4 ∧ k < 32 := by simpa [Instr.WellFormed, Instr.wellFormed] using hi
    simp [Instr.op, Op.build, encode, fieldRd, fieldT, fieldImm5, rdBits_wordT, tBits_wordT, kBits_wordT,
      Nat.mod_eq_of_lt ht, Nat.mod_eq_of_lt hk]
  | setn logn =>
    have hl : logn < 32 := by simpa [Instr.WellFormed, Instr.wellFormed] using hi
    simp [Instr.op, Op.build, encode, fieldImm5, immBits_wordV, Nat.mod_eq_of_lt hl]
  | ldc rd bd ra | stc rd bd ra =>
    simp [Instr.op, Op.build, encode, fieldRd, fieldBd, fieldRa, rdBits_wordM, bdBit_wordM, raBits_wordM,
      bankOfBit_bit]
  | brev bd | scal bd | norm bd | trim bd =>
    simp [Instr.op, Op.build, encode, fieldBd, bdBit_wordV, bankOfBit_bit]
  | bfly bd dir | ntt bd dir =>
    simp [Instr.op, Op.build, encode, fieldBd, fieldDir, bdBit_wordV, dirBit_wordV, bankOfBit_bit, dirOfBit_bit]
  | pmul bd bs =>
    simp [Instr.op, Op.build, encode, fieldBd, fieldBs, bdBit_wordV, bsBit_wordV, bankOfBit_bit]
  | add rd ra rb | sub rd ra rb | lt rd ra rb | addm rd ra rb | subm rd ra rb | mulm rd ra rb | powm rd ra rb =>
    simp [Instr.op, Op.build, encode, fieldRd, fieldRa, fieldRb, rdBits_wordS, raBits_wordS, rbBits_wordS]

theorem decode_encode (i : Instr) (hi : i.WellFormed) : decode (encode i) = .ok i := by
  rw [decode_of_row (opOfByte_encode i) (encode_and_mask i), build_encode i hi]

namespace Machine

theorem runCommand_of_decode {c : Word} {i : Instr} (h : decode c = .ok i) (s : State) :
    runCommand c s = exec i s := by
  simp only [runCommand, h]

/-- A step of a running unit with a command word pending for `CMD` runs that word. -/
theorem step_command {s : State} {c : Word} {rest : List Transaction} (hf : s.fault = 0)
    (hp : s.pending = .write cmdAddr c :: rest) : step s = runCommand c (s.setPending rest) := by
  rw [step_write hp, hostWrite_running _ _ (by simpa using hf), placeOf_cmdAddr]

/-- Settles O5: the word runs as the command it decodes to, and an encoding decodes to its command. -/
theorem stepExecutesTheCommandWritten : Obligations.StepExecutesTheCommandWritten := by
  have decoded : ∀ (s : State) (c : Word) (i : Instr) (rest : List Transaction), s.fault = 0 →
      s.pending = .write cmdAddr c :: rest → decode c = .ok i → step s = exec i (s.setPending rest) := by
    intro s c i rest hf hp hd
    rw [step_command hf hp, runCommand_of_decode hd]
  exact ⟨decoded, fun s i rest hf hi hp => decoded s _ i rest hf hp (decode_encode i hi)⟩

end Machine
end Sys2Proof
end

section
/-! The flat address map (rules R32 and R36), read from the number of an address to the place it names. -/

namespace Sys2Proof.Machine

theorem placeOf_bankWord {ha : PortAddr} {b : BankId} {i : Nat} (hi : i < DEPTH)
    (h : ha.toNat = (if b = .A then 0 else 0x1000000) + i) : placeOf ha = .bank b i := by
  have hD := DEPTH_eq
  cases b with
  | A =>
    have index : ha.toNat = i := h.trans (Nat.zero_add i)
    rw [placeOf_bankA ha (by omega), index, bankPlace_of_lt .A hi]
  | B =>
    have address : ha.toNat = 0x1000000 + i := h
    rw [placeOf_bankB ha (by omega) (by omega), address, Nat.add_sub_cancel_left, bankPlace_of_lt .B hi]

theorem placeOf_romEntry {ha : PortAddr} {t k : Nat} (ht : t ≤ 2) (hk : k ≤ 23)
    (h : ha.toNat = 0x2000000 + 32 * t + k) : placeOf ha = .rom t k := by
  have table : ha.toNat / 32 % 4 = t := by omega
  have entry : ha.toNat % 32 = k := by omega
  rw [placeOf_rom ha (by omega) (by omega), table, entry, if_pos ⟨by omega, ht, hk⟩]

theorem placeOf_x {ha : PortAddr} {r : Reg} (h : ha.toNat = 0x3000000 + r.val) : placeOf ha = .x r := by
  rw [placeOf_register ha (by omega), if_pos (by omega), h, Nat.add_sub_cancel_left, registerPlace_x]

theorem placeOf_cmd {ha : PortAddr} (h : ha.toNat = 0x3000010) : placeOf ha = .cmd := by
  obtain rfl : ha = cmdAddr := BitVec.eq_of_toNat_eq h
  exact placeOf_cmdAddr

theorem placeOf_fault {ha : PortAddr} (h : ha.toNat = 0x3000011) : placeOf ha = .fault := by
  obtain rfl : ha = 0x3000011 := BitVec.eq_of_toNat_eq h
  decide

theorem placeOf_logn {ha : PortAddr} (h : ha.toNat = 0x3000012) : placeOf ha = .logn := by
  obtain rfl : ha = 0x3000012 := BitVec.eq_of_toNat_eq h
  decide

theorem placeOf_len {ha : PortAddr} (h : ha.toNat = 0x3000013) : placeOf ha = .len := by
  obtain rfl : ha = 0x3000013 := BitVec.eq_of_toNat_eq h
  decide

/-- The two ranges of bank addresses hold bank words and nothing else. -/
theorem exists_placeOf_eq_bank {ha : PortAddr}
    (h : ha.toNat < DEPTH ∨ (0x1000000 ≤ ha.toNat ∧ ha.toNat < 0x1000000 + DEPTH)) :
    ∃ b i, placeOf ha = .bank b i := by
  rcases h with h | ⟨h1, h2⟩
  · exact ⟨.A, ha.toNat, placeOf_bankWord h (by simp)⟩
  · exact ⟨.B, ha.toNat - 0x1000000, placeOf_bankWord (by omega) (by simp; omega)⟩

end Sys2Proof.Machine
end

section
/-! Legal and illegal host accesses (rules R36 to R39 and R41), by the place an address names. -/

namespace Sys2Proof.Machine

/-! ## Reads -/

@[simp] theorem readPlace_setPending (s : State) (ts : List Transaction) (p : Place) :
    readPlace (s.setPending ts) p = readPlace s p := by
  cases p <;> simp [readPlace]

theorem step_read_legal {s : State} {ha : PortAddr} {v : Word} {rest : List Transaction}
    (hp : s.pending = .read ha :: rest) (hread : readPlace s (placeOf ha) = some v) :
    step s = .next (reply v (s.setPending rest)) := by
  rw [step_read hp, hostRead_legal (by rwa [readPlace_setPending])]

theorem sameButFault_reply (v : Word) (s : State) : SameButFault s (reply v s) :=
  ⟨fun _ => rfl, fun _ _ _ => by simp, rfl, rfl⟩

/-- A register narrower than a word is read extended with zeros (rule R37). -/
theorem zeroExtend_eq_of_toNat_eq {w : Nat} {r : BitVec w} {v : Word} (h : v.toNat = r.toNat) :
    r.zeroExtend 32 = v := by
  apply BitVec.eq_of_toNat_eq
  rw [BitVec.zeroExtend_eq_setWidth, BitVec.toNat_setWidth, ← h, Nat.mod_eq_of_lt v.isLt]

/-- Settles O46: each address names its place, whose word the read answers; `reply` touches nothing else. -/
theorem legalReads : Obligations.LegalReads := by
  intro s ha v rest hp hlegal
  have hread : readPlace s (placeOf ha) = some v := by
    rcases hlegal with ⟨i, hi, h, rfl⟩ | ⟨i, hi, h, rfl⟩ | ⟨t, k, ht, hk, h, rfl⟩ | ⟨r, h, rfl⟩ | ⟨h, hv⟩ |
      ⟨h, hv⟩ | ⟨h, rfl⟩
    · rw [placeOf_bankWord (b := .A) hi (by simpa using h), readPlace]
    · rw [placeOf_bankWord (b := .B) hi h, readPlace]
    · rw [placeOf_romEntry ht hk h, readPlace]
    · rw [placeOf_x h, readPlace]
    · rw [placeOf_fault h, readPlace, zeroExtend_eq_of_toNat_eq hv]
    · rw [placeOf_logn h, readPlace, zeroExtend_eq_of_toNat_eq hv]
    · rw [placeOf_len h, readPlace]
  exact ⟨_, step_read_legal hp hread, rfl, sameButFault_reply v (s.setPending rest), rfl, rfl, rfl⟩

/-! ## Writes -/

/-- Writing `v` to a place is illegal (rule R36). -/
def Place.Refuses (v : Word) : Place → Prop
  | .rom _ _ | .fault | .logn | .nothing => True
  | .len => DEPTH < v.toNat
  | .bank _ _ | .x _ | .cmd => False

section
variable {s : State} {ha : PortAddr} {v : Word} (hf : s.fault = 0)
include hf

theorem hostWrite_bank {b : BankId} {i : Nat} (h : placeOf ha = .bank b i) :
    hostWrite ha v s = .next (s.setWord b i v) := by
  rw [hostWrite_running ha v hf, h]

theorem hostWrite_x {r : Reg} (h : placeOf ha = .x r) : hostWrite ha v s = .next (s.setX r v) := by
  rw [hostWrite_running ha v hf, h]

theorem hostWrite_len (h : placeOf ha = .len) (hv : v.toNat ≤ DEPTH) :
    hostWrite ha v s = .next (s.setLen v) := by
  rw [hostWrite_running ha v hf, h]
  exact if_pos hv

theorem hostWrite_refused (h : (placeOf ha).Refuses v) : hostWrite ha v s = .next (takeFault .addr s) := by
  rw [hostWrite_running ha v hf]
  generalize placeOf ha = p at h ⊢
  cases p with
  | rom | fault | logn | nothing => rfl
  | len => exact if_neg (Nat.not_le.2 h)
  | bank | x | cmd => exact h.elim

end

theorem word_setWord_ne (s : State) {b c : BankId} {i j : Nat} (v : Word) (h : (c, j) ≠ (b, i)) :
    (s.setWord b i v).word c j = s.word c j := by
  rw [State.word_setWord, if_neg (by rwa [← Prod.mk.injEq])]

/-- Settles O47: the write is `setWord`, `setX` or `setLen`, whose frames are the state's own lemmas. -/
theorem legalWrites : Obligations.LegalWrites := by
  intro s ha v rest hf hp
  have hrun : (s.setPending rest).fault = 0 := hf
  rw [step_write hp]
  refine ⟨fun b i hi h => ?_, fun r h => ?_, fun h hv => ?_⟩
  · refine ⟨_, hostWrite_bank hrun (placeOf_bankWord hi h), by simp [State.word_setWord], fun c j hne => ?_,
      fun _ => by simp, ⟨by simp, by simp⟩, by simpa using hf, by simp, by simp⟩
    rw [word_setWord_ne _ v hne, State.setPending_word]
  · obtain ⟨hregs, hbanks, hcontrol, -⟩ := onlyRegister_setX r (s.setPending rest) v
    exact ⟨_, hostWrite_x hrun (placeOf_x h), State.getX_setX_self .., hregs, hbanks, hcontrol, hf, rfl, rfl⟩
  · exact ⟨_, hostWrite_len hrun (placeOf_len h) hv, rfl, fun _ => rfl, fun _ _ _ => by simp, rfl, hf, rfl, rfl⟩

/-! ## Illegal accesses -/

/-- The illegal writes of rule R36, by their addresses. -/
theorem placeOf_refuses {ha : PortAddr} {v : Word}
    (h : Unmapped ha ∨ (0x2000000 ≤ ha.toNat ∧ ha.toNat < 0x3000000) ∨ ha.toNat = 0x3000011 ∨
      ha.toNat = 0x3000012 ∨ (ha.toNat = 0x3000013 ∧ DEPTH < v.toNat)) : (placeOf ha).Refuses v := by
  rcases h with h | ⟨h1, h2⟩ | h | h | ⟨h, hv⟩
  · rw [placeOf_unmapped h]; trivial
  · rw [placeOf_rom ha h1 h2]; split <;> trivial
  · rw [placeOf_fault h]; trivial
  · rw [placeOf_logn h]; trivial
  · rw [placeOf_len h]; exact hv

/-- Settles O48: nothing legal is read at an unmapped address or at `CMD`, and every illegal write is one
its place refuses. -/
theorem illegalAccessFaults : Obligations.IllegalAccessFaults := by
  intro s ha rest hf
  refine ⟨fun hp h => ?_, fun v hp h => ?_⟩
  · have hread : readPlace (s.setPending rest) (placeOf ha) = none := by
      rcases h with h | h
      · rw [placeOf_unmapped h, readPlace]
      · rw [placeOf_cmd h, readPlace]
    rw [step_read hp, hostRead_illegal hread, illegalAccess_running (by simpa using hf)]
    exact ⟨_, rfl, rfl, ⟨fun _ => rfl, fun _ _ _ => by simp, rfl, rfl⟩, rfl⟩
  · rw [step_write hp, hostWrite_refused (by simpa using hf) (placeOf_refuses h)]
    exact ⟨_, rfl, onlyFault_takeFault .addr _⟩

/-! ## Accesses performed again -/

theorem setWord_setWord_self (s : State) (b : BankId) (i : Nat) (v : Word) :
    (s.setWord b i v).setWord b i v = s.setWord b i v := by
  simp only [State.setWord, State.bank_setBank_self, State.setBank_setBank, Memory.write_write_self]

theorem setX_setX_self (s : State) (r : Reg) (v : Word) : (s.setX r v).setX r v = s.setX r v := by
  simp [State.setX]

/-- Every write but one to `CMD` is a legal write to a bank, a register or `LEN`, or is refused. -/
theorem place_write_cases (p : Place) (v : Word) :
    (∃ b i, p = .bank b i) ∨ (∃ r, p = .x r) ∨ (p = .len ∧ v.toNat ≤ DEPTH) ∨ p = .cmd ∨ p.Refuses v := by
  cases p with
  | len => simpa [Place.Refuses] using le_or_gt v.toNat DEPTH
  | _ => simp [Place.Refuses]

/-- Settles O49: a legal write stores again what it stored, and after a refused one the unit is halted. -/
theorem writesAreIdempotent : Obligations.WritesAreIdempotent := by
  refine ⟨fun s t ha v hcmd h => ?_, fun s ha v => hostRead_legal⟩
  by_cases hf : s.fault = 0
  · rcases place_write_cases (placeOf ha) v with ⟨b, i, hplace⟩ | ⟨r, hplace⟩ | ⟨hplace, hv⟩ | hplace | hplace
    · cases (hostWrite_bank hf hplace).symm.trans h
      rw [hostWrite_bank (by simpa using hf) hplace, setWord_setWord_self]
    · cases (hostWrite_x hf hplace).symm.trans h
      rw [hostWrite_x (by simpa using hf) hplace, setX_setX_self]
    · cases (hostWrite_len hf hplace hv).symm.trans h
      exact hostWrite_len hf hplace hv
    · exact absurd (placeOf_eq_cmd hplace) hcmd
    · cases (hostWrite_refused hf hplace).symm.trans h
      exact hostWrite_halted ha v (by simp [FaultCode.code])
  · cases (hostWrite_halted ha v hf).symm.trans h
    exact h

/-- Settles O50: one step writes the word of the bank, the next reads it there. -/
theorem readReturnsTheLastWrite : Obligations.ReadReturnsTheLastWrite := by
  intro s ha v rest hf hbank hp
  obtain ⟨b, i, hplace⟩ := exists_placeOf_eq_bank hbank
  have hwrite : step s = .next ((s.setPending (.read ha :: rest)).setWord b i v) := by
    rw [step_write hp, hostWrite_bank (by simpa using hf) hplace]
  have hread : readPlace ((s.setPending (.read ha :: rest)).setWord b i v) (placeOf ha) = some v := by
    rw [hplace, readPlace, State.word_setWord, if_pos ⟨rfl, rfl⟩]
  refine ⟨_, (steps_succ_of_step 1 hwrite).trans
    (steps_succ_of_step 0 (step_read_legal (State.setWord_pending ..) hread)), ?_, ?_, rfl⟩
  · simp
  · simpa using hf

end Sys2Proof.Machine
end

section
/-! Rules R53 and R56: the rows of the opcode map decide which words decode, and a word of a row is the
encoding of that row's command. -/

namespace Sys2Proof

/-- A field the row's mask covers holds what the row's pattern holds there. -/
theorem field_of_row {c : Word} {o : Op} (h : c &&& o.mask = o.pattern) (start len : Nat)
    (covered : o.mask.extractLsb' start len = BitVec.allOnes len) :
    c.extractLsb' start len = o.pattern.extractLsb' start len := by
  rw [← h, BitVec.extractLsb'_and, covered, BitVec.and_allOnes]

/-! ## The row of a word -/

theorem opOfByte_fieldOp_pattern (o : Op) : opOfByte (fieldOp o.pattern) = some o := by
  cases o <;> rfl

/-- A word that matches a row carries the row's opcode, since every mask covers the opcode byte. -/
theorem opOfByte_of_row {c : Word} {o : Op} (h : c &&& o.mask = o.pattern) :
    opOfByte (fieldOp c) = some o := by
  have opcode : fieldOp c = fieldOp o.pattern := field_of_row h 24 8 (by cases o <;> rfl)
  rw [opcode, opOfByte_fieldOp_pattern]

theorem decode_eq_ok_iff {c : Word} {i : Instr} :
    decode c = .ok i ↔ ∃ o : Op, c &&& o.mask = o.pattern ∧ o.build c = i := by
  constructor
  · intro h
    unfold decode at h
    split at h
    · cases h
    · next o _ =>
      split at h
      · next hrow => exact ⟨o, hrow, by injection h⟩
      · cases h
  · rintro ⟨o, hrow, rfl⟩
    exact decode_of_row (opOfByte_of_row hrow) hrow

theorem decode_error_of_no_row {c : Word} (h : ∀ o : Op, c &&& o.mask ≠ o.pattern) :
    ∃ e, decode c = .error e := by
  cases hd : decode c with
  | error e => exact ⟨e, rfl⟩
  | ok i =>
    obtain ⟨o, hrow, -⟩ := decode_eq_ok_iff.1 hd
    exact absurd hrow (h o)

/-! ## The command of a row -/

theorem op_build (o : Op) (c : Word) : (o.build c).op = o := by
  cases o <;> rfl

/-- A word decodes to a command of a row exactly when it matches the row (rule R53). -/
theorem decodes_to_row_iff (o : Op) (c : Word) :
    (∃ i, decode c = .ok i ∧ i.op = o) ↔ c &&& o.mask = o.pattern := by
  constructor
  · rintro ⟨i, hd, rfl⟩
    obtain ⟨o, hrow, rfl⟩ := decode_eq_ok_iff.1 hd
    rwa [op_build]
  · intro hrow
    exact ⟨o.build c, decode_eq_ok_iff.2 ⟨o, hrow, rfl⟩, op_build o c⟩

/-- The immediates are read from their fields, so they fit them. -/
theorem wellFormed_build (o : Op) (c : Word) : (o.build c).WellFormed := by
  cases o with
  | ldt =>
    have ht : fieldT c < 4 := (c.extractLsb' 5 2).isLt
    have hk : fieldImm5 c < 32 := (c.extractLsb' 0 5).isLt
    simp [Op.build, Instr.WellFormed, Instr.wellFormed, ht, hk]
  | setn =>
    have hl : fieldImm5 c < 32 := (c.extractLsb' 0 5).isLt
    simp [Op.build, Instr.WellFormed, Instr.wellFormed, hl]
  | _ => rfl

/-- A row of format `V` wants zeros at least outside the bank bits and the immediate, so a word of the row
is put together from these. -/
theorem wordV_of_row {c : Word} {o : Op} (h : c &&& o.mask = o.pattern)
    (covered : o.mask &&& 0xFFFFFCE0 = 0xFFFFFCE0)
    (opcode : o.pattern &&& 0xFFFFFCE0 = fieldOp o.pattern ++ 0#24) :
    wordV (fieldOp o.pattern) (c.extractLsb' 9 1) (c.extractLsb' 8 1) (c.extractLsb' 0 5) = c := by
  apply wordV_fields
  rw [← opcode, ← h, BitVec.and_assoc, covered]

/-- With zeros above the direction bit, the immediate field is that bit extended. -/
theorem immediate_eq_dirBit {c : Word} (h : c.extractLsb' 1 4 = 0#4) :
    c.extractLsb' 0 5 = 0#4 ++ c.extractLsb' 0 1 := by
  rw [← h]
  exact (BitVec.extractLsb'_append_extractLsb'_eq_extractLsb'
    (start₁ := 0) (len₁ := 1) rfl).symm

/-- No bit of a word of the row is ignored: its fields put it together again. -/
theorem encode_build {c : Word} {o : Op} (h : c &&& o.mask = o.pattern) : encode (o.build c) = c := by
  cases o with
  | add | sub | lt | addm | subm | mulm | powm => exact wordS_fields _ c h
  | ldt => exact wordT_fields _ c h
  | ldc | stc => exact wordM_fields _ c h
  | setn =>
    have hbs : c.extractLsb' 9 1 = 0 := field_of_row h 9 1 rfl
    have hbd : c.extractLsb' 8 1 = 0 := field_of_row h 8 1 rfl
    have word := wordV_of_row h rfl rfl
    rw [hbs, hbd] at word
    rwa [Op.build, encode, fieldImm5, BitVec.ofNat_toNat, BitVec.setWidth_eq]
  | brev | scal | norm | trim =>
    have hbs : c.extractLsb' 9 1 = 0 := field_of_row h 9 1 rfl
    have himm : c.extractLsb' 0 5 = 0 := field_of_row h 0 5 rfl
    have word := wordV_of_row h rfl rfl
    rw [hbs, himm] at word
    rwa [Op.build, encode, fieldBd, bit_bankOfBit]
  | bfly | ntt =>
    have hbs : c.extractLsb' 9 1 = 0 := field_of_row h 9 1 rfl
    have himm := immediate_eq_dirBit (field_of_row h 1 4 rfl)
    have word := wordV_of_row h rfl rfl
    rw [hbs, himm] at word
    rwa [Op.build, encode, fieldBd, fieldDir, bit_bankOfBit, bit_dirOfBit]
  | pmul =>
    have himm : c.extractLsb' 0 5 = 0 := field_of_row h 0 5 rfl
    have word := wordV_of_row h rfl rfl
    rw [himm] at word
    rwa [Op.build, encode, fieldBs, fieldBd, bit_bankOfBit, bit_bankOfBit]

/-! ## The obligations -/

/-- Settles O2: the encoding has its row's opcode and zeros, and the row rebuilds the command from it. -/
theorem decodeInvertsEncode : Obligations.DecodeInvertsEncode := decode_encode

/-- Settles O3: the word matches some row, whose command is well-formed and encoded by the word itself. -/
theorem encodeInvertsDecode : Obligations.EncodeInvertsDecode := by
  intro c i h
  obtain ⟨o, hrow, rfl⟩ := decode_eq_ok_iff.1 h
  exact ⟨wellFormed_build o c, encode_build hrow⟩

/-- Settles O4: the rows written out are the model's, each with its pattern and mask. -/
theorem opcodeMapDecides : Obligations.OpcodeMapDecides := by
  unfold Obligations.OpcodeMapDecides
  intro rows
  have row_eq : ∀ row ∈ rows, row = (row.1, row.1.pattern, row.1.mask) := by decide
  have row_mem : ∀ o : Op, (o, o.pattern, o.mask) ∈ rows := fun o => by cases o <;> decide
  constructor
  · intro row hmem c
    rw [row_eq row hmem]
    exact decodes_to_row_iff row.1 c
  · intro c h
    exact decode_error_of_no_row fun o => h _ (row_mem o)

/-- Settles O1: the decoder is run on the words of rule R60. -/
theorem exampleWordsDecode : Obligations.ExampleWordsDecode := by
  unfold Obligations.ExampleWordsDecode
  decide

namespace Machine

theorem runCommand_of_decode_error {c : Word} {e : Illegal} (h : decode c = .error e) (s : State) :
    runCommand c s = .next (takeFault .illegal s) := by
  simp only [runCommand, h]

/-- Settles O6: a word of no row is refused by the decoder, and the fault is all the refusal does. -/
theorem illegalWordFaults : Obligations.IllegalWordFaults := by
  intro s c rest hf hp hrow
  obtain ⟨e, he⟩ := decode_error_of_no_row hrow
  rw [step_command hf hp, runCommand_of_decode_error he]
  exact ⟨_, rfl, onlyFault_takeFault .illegal _⟩

end Machine
end Sys2Proof
end

section
/-! The commands of the modular arithmetic unit (rules R70 to R80): what they compute, what they check and
what a failed check leaves. -/

namespace Sys2Proof.Machine

/-! ## Rules for the words and the checks -/

/-- The `mod` of rule R8 on a signed difference, read back as an integer. -/
theorem sub_toNat_intCast (a b : Word) : ((a - b).toNat : Int) = ((a.toNat : Int) - (b.toNat : Int)) % 2 ^ 32 := by
  have := b.isLt
  rw [BitVec.toNat_sub]
  omega

/-- Rule R75 on integers: the remainder is never negative, so no information is lost in the word. -/
theorem subMod_toNat_intCast (a b : Word) :
    ((subMod a b).toNat : Int) = ((a.toNat : Int) - (b.toNat : Int)) % (MOD : Int) := by
  rw [subMod_toNat, Int.toNat_of_nonneg (Int.emod_nonneg _ (Int.natCast_ne_zero.2 MOD_pos.ne'))]

theorem inField_eq_false_iff (a : Word) : inField a = false ↔ MOD ≤ a.toNat := by
  rw [← Bool.not_eq_true, inField_iff, not_lt]

theorem bothInField_iff (a b : Word) : bothInField a b = true ↔ a.toNat < MOD ∧ b.toNat < MOD := by
  rw [bothInField, Bool.and_eq_true, inField_iff, inField_iff]

theorem bothInField_eq_false_iff (a b : Word) :
    bothInField a b = false ↔ MOD ≤ a.toNat ∨ MOD ≤ b.toNat := by
  rw [bothInField, Bool.and_eq_false_iff, inField_eq_false_iff, inField_eq_false_iff]

/-- Fermat's little theorem in the unit's field (rule R79). -/
theorem pow_MOD_sub_two_mul {v : ZMod MOD} (hv : v ≠ 0) : v ^ (MOD - 2) * v = 1 := by
  have : Fact (Nat.Prime MOD) := ⟨modulus_prime⟩
  rw [← pow_succ, show MOD - 2 + 1 = MOD - 1 by decide]
  exact ZMod.pow_card_sub_one_eq_one hv

theorem fieldElem_powMod (base e : Word) : fieldElem (powMod base e) = fieldElem base ^ e.toNat := by
  rw [fieldElem, powMod_toNat, ZMod.natCast_mod, Nat.cast_pow, fieldElem]

theorem fieldElem_ne_zero {v : Word} (hv : v.toNat < MOD) (h : v ≠ 0) : fieldElem v ≠ 0 := fun hz =>
  h (eq_of_fieldElem_eq hv MOD_pos (hz.trans fieldElem_zero.symm))

/-! ## The outcomes of a checked command -/

/-- The frame of rule R80 for `F_RANGE` in a scalar command. -/
theorem onlyRangeFault_rangeFaultX (rd : Reg) (s : State) : OnlyRangeFault rd s (rangeFaultX rd s) :=
  ⟨rfl, rangeFaultX_getX rd s, fun _ _ _ => by simp [rangeFaultX], ⟨rfl, rfl⟩, ⟨rfl, rfl⟩⟩

section
variable {ok : Word → Word → Bool} {f : Word → Word → Word} {rd ra rb : Reg} {s : State}

/-- Rule R70, the check passes: an operation that answers field elements leaves one in `x[rd]`. -/
theorem checkedOp_pass_lt (hf : ∀ a b, (f a b).toNat < MOD) (h : ok (s.getX ra) (s.getX rb) = true) :
    ∃ t, checkedOp ok f rd ra rb s = .next t ∧ t.fault = s.fault ∧ (t.getX rd).toNat < MOD :=
  ⟨_, checkedOp_pass f rd h, rfl, by rw [State.getX_setX_self]; exact hf _ _⟩

/-- Rule R70, the check fails: `F_RANGE`, whatever the operation. -/
theorem checkedOp_fail_onlyRangeFault (h : ok (s.getX ra) (s.getX rb) = false) :
    ∃ t, checkedOp ok f rd ra rb s = .next t ∧ OnlyRangeFault rd s t :=
  ⟨_, checkedOp_fail f rd h, onlyRangeFault_rangeFaultX rd s⟩

/-- Rule R70 for a command that checks both sources. -/
theorem checkedOp_bothInField (hf : ∀ a b, (f a b).toNat < MOD) :
    ((s.getX ra).toNat < MOD → (s.getX rb).toNat < MOD →
      ∃ t, checkedOp bothInField f rd ra rb s = .next t ∧ t.fault = s.fault ∧ (t.getX rd).toNat < MOD) ∧
    (MOD ≤ (s.getX ra).toNat ∨ MOD ≤ (s.getX rb).toNat →
      ∃ t, checkedOp bothInField f rd ra rb s = .next t ∧ OnlyRangeFault rd s t) :=
  ⟨fun ha hb => checkedOp_pass_lt hf ((bothInField_iff _ _).2 ⟨ha, hb⟩),
    fun h => checkedOp_fail_onlyRangeFault ((bothInField_eq_false_iff _ _).2 h)⟩

/-- Rule R77: a base in the field passes `POWM`'s check, whatever the exponent. -/
theorem exec_powm_pass (ha : (s.getX ra).toNat < MOD) :
    exec (.powm rd ra rb) s = .next (s.setX rd (powMod (s.getX ra) (s.getX rb))) :=
  checkedOp_pass powMod rd ((inField_iff _).2 ha)

end

/-! ## The raw commands -/

/-- Settles O8: the machine word's own sum and difference are those of rules R71 and R72. -/
theorem rawAdditionAndSubtraction : Obligations.RawAdditionAndSubtraction := by
  intro s rd ra rb
  constructor
  · exact ⟨_, rfl, by rw [State.getX_setX_self, BitVec.toNat_add], onlyRegister_setX rd s _⟩
  · exact ⟨_, rfl, by rw [State.getX_setX_self, sub_toNat_intCast], onlyRegister_setX rd s _⟩

/-- Settles O9: the order of rule R73 is that of the words' unsigned values. -/
theorem unsignedComparison : Obligations.UnsignedComparison := by
  intro s rd ra rb
  refine ⟨_, rfl, fun h => ?less, fun h => ?notLess, onlyRegister_setX rd s _⟩
  case less => exact (State.getX_setX_self s rd _).trans (congrArg truthWord (decide_eq_true h))
  case notLess => exact (State.getX_setX_self s rd _).trans (congrArg truthWord (decide_eq_false (not_lt.2 h)))

/-! ## The modular commands -/

/-- Settles O10: field operands pass the check, and each operation reduces the exact result. -/
theorem modularArithmetic : Obligations.ModularArithmetic := by
  intro s rd ra rb ha hb
  have check : bothInField (s.getX ra) (s.getX rb) = true := (bothInField_iff _ _).2 ⟨ha, hb⟩
  refine ⟨⟨_, checkedOp_pass addMod rd check, ?_, onlyRegister_setX rd s _⟩,
    ⟨_, checkedOp_pass subMod rd check, ?_, onlyRegister_setX rd s _⟩,
    ⟨_, checkedOp_pass mulMod rd check, ?_, onlyRegister_setX rd s _⟩⟩
  · rw [State.getX_setX_self, addMod_toNat]
  · rw [State.getX_setX_self, subMod_toNat_intCast]
  · rw [State.getX_setX_self, mulMod_toNat]

/-- Settles O11: square-and-multiply computes the power for every 32-bit exponent (`powNat_eq`). -/
theorem modularExponentiation : Obligations.ModularExponentiation := by
  intro s rd ra rb ha
  exact ⟨_, exec_powm_pass ha, by rw [State.getX_setX_self, powMod_toNat], onlyRegister_setX rd s _⟩

/-- Settles O12: the three commands differ in the operation only, and `POWM` in the check too. -/
theorem rangePrecondition : Obligations.RangePrecondition := by
  intro s rd ra rb
  refine ⟨fun i hi => ?both, fun ha => ?base, fun ha => ?baseOut, fun i hi => ?raw⟩
  case both =>
    rcases hi with rfl | rfl | rfl
    · exact checkedOp_bothInField addMod_lt
    · exact checkedOp_bothInField subMod_lt
    · exact checkedOp_bothInField mulMod_lt
  case base => exact checkedOp_pass_lt (ok := baseInField) powMod_lt ((inField_iff _).2 ha)
  case baseOut => exact checkedOp_fail_onlyRangeFault (ok := baseInField) ((inField_eq_false_iff _).2 ha)
  case raw => rcases hi with rfl | rfl | rfl <;> exact ⟨_, rfl, rfl⟩

/-- Settles O13: Fermat's little theorem, and `0^e = 0` for the exponent `MOD - 2`, which is not 0. -/
theorem inverseByFermat : Obligations.InverseByFermat := by
  intro s rd ra rb ha hb
  refine ⟨_, exec_powm_pass ha, fun hne => ?inverse, fun hz => ?zero⟩
  case inverse =>
    apply mod_of_natCast_eq one_lt_MOD
    rw [State.getX_setX_self, Nat.cast_mul, Nat.cast_one]
    calc fieldElem (powMod (s.getX ra) (s.getX rb)) * fieldElem (s.getX ra)
        = fieldElem (s.getX ra) ^ (MOD - 2) * fieldElem (s.getX ra) := by rw [fieldElem_powMod, hb]
      _ = 1 := pow_MOD_sub_two_mul (fieldElem_ne_zero ha hne)
  case zero =>
    have base_zero : fieldElem (s.getX ra) = 0 := (congrArg fieldElem hz).trans fieldElem_zero
    rw [State.getX_setX_self]
    apply eq_of_fieldElem_eq (b := 0#32) (powMod_lt _ _) MOD_pos
    rw [fieldElem_powMod, hb, base_zero, fieldElem_zero, zero_pow (by decide : MOD - 2 ≠ 0)]

end Sys2Proof.Machine
end

section
/-! The table ROM (rules R90 to R94): the laws of its entries as numbers, read from those of the field
elements they stand for, and what `LDT` loads. -/

namespace Sys2Proof.Machine

/-! ## From field elements to words -/

theorem fieldElem_pow_mod {w : Word} {n m : Nat} (hm : m < MOD) (h : fieldElem w ^ n = (m : ZMod MOD)) :
    w.toNat ^ n % MOD = m :=
  mod_of_natCast_eq hm (by rw [Nat.cast_pow]; exact h)

/-- A word that stands for a unit of the field is not zero. -/
theorem one_le_toNat_of_fieldElem_mul {w : Word} {x : ZMod MOD} (h : fieldElem w * x = 1) : 1 ≤ w.toNat := by
  have : Fact (1 < MOD) := ⟨one_lt_MOD⟩
  apply Nat.one_le_iff_ne_zero.2
  intro hzero
  apply left_ne_zero_of_mul_eq_one h
  rw [fieldElem, hzero, Nat.cast_zero]

/-! ## The roots, in both directions -/

theorem rom_root_pow_full (dir : Dir) {k : Nat} (hk : k ≤ 23) :
    (rom (rootTable dir) k).toNat ^ 2 ^ k % MOD = 1 :=
  fieldElem_pow_mod one_lt_MOD ((root_pow_full dir k hk).trans Nat.cast_one.symm)

theorem rom_root_pow_half (dir : Dir) {k : Nat} (hk : k < 23) :
    (rom (rootTable dir) (k + 1)).toNat ^ 2 ^ k % MOD = MOD - 1 :=
  fieldElem_pow_mod (Nat.sub_lt MOD_pos Nat.one_pos)
    ((root_pow_half dir k hk).trans natCast_MOD_sub_one.symm)

/-- The squares step down one entry. -/
theorem rom_root_sq (dir : Dir) {k : Nat} (hk : k < 23) :
    (rom (rootTable dir) (k + 1)).toNat ^ 2 % MOD = (rom (rootTable dir) k).toNat :=
  fieldElem_pow_mod (rom_lt _ _) (root_sq dir k hk)

/-- The root of order 1. -/
theorem rom_root_zero (dir : Dir) : rom (rootTable dir) 0 = 1 := by
  apply BitVec.eq_of_toNat_eq
  have h := rom_root_pow_full dir (Nat.zero_le 23)
  rwa [pow_zero, pow_one, Nat.mod_eq_of_lt (rom_lt _ _)] at h

/-- The root of order 2. -/
theorem rom_root_one (dir : Dir) : (rom (rootTable dir) 1).toNat = MOD - 1 := by
  have h := rom_root_pow_half dir (k := 0) (by decide)
  rwa [pow_zero, pow_one, Nat.mod_eq_of_lt (rom_lt _ _)] at h

/-- The longest transform's roots are the generators themselves. -/
theorem rom_root_last : (rom 0 23).toNat = G := by
  rw [rom_root_toNat, Nat.sub_self, pow_zero, pow_one, Nat.mod_eq_of_lt (by decide)]

theorem rom_invRoot_last : (rom 1 23).toNat = GINV := by
  rw [rom_invRoot_toNat, Nat.sub_self, pow_zero, pow_one, Nat.mod_eq_of_lt (by decide)]

theorem rom_root_mul_invRoot (k : Nat) : (rom 0 k).toNat * (rom 1 k).toNat % MOD = 1 :=
  mod_of_natCast_eq one_lt_MOD (by rw [Nat.cast_mul, Nat.cast_one]; exact root_mul_other .fwd k)

/-! ## The inverse lengths -/

theorem rom_invLen_mul (k : Nat) : (rom 2 k).toNat * 2 ^ k % MOD = 1 :=
  mod_of_natCast_eq one_lt_MOD (by
    rw [Nat.cast_mul, Nat.cast_pow, Nat.cast_ofNat, Nat.cast_one]; exact fieldElem_rom_invLen_mul k)

/-- Both sides are the inverse of `2^(k+1)`, and a unit has one inverse. -/
theorem fieldElem_rom_invLen_succ (k : Nat) :
    fieldElem (rom 2 (k + 1)) = fieldElem (rom 2 k) * fieldElem (rom 2 1) := by
  apply left_inv_eq_right_inv (fieldElem_rom_invLen_mul (k + 1))
  calc (2 : ZMod MOD) ^ (k + 1) * (fieldElem (rom 2 k) * fieldElem (rom 2 1))
      = fieldElem (rom 2 k) * 2 ^ k * (fieldElem (rom 2 1) * 2 ^ 1) := by ring
    _ = 1 := by rw [fieldElem_rom_invLen_mul, fieldElem_rom_invLen_mul, one_mul]

theorem rom_invLen_succ (k : Nat) : rom 2 (k + 1) = mulMod (rom 2 k) (rom 2 1) :=
  eq_of_fieldElem_eq (rom_lt _ _) (mulMod_lt _ _) (by rw [fieldElem_mulMod, fieldElem_rom_invLen_succ])

theorem rom_invLen_zero : rom 2 0 = 1 := by
  apply BitVec.eq_of_toNat_eq
  have h := rom_invLen_mul 0
  rwa [pow_zero, mul_one, Nat.mod_eq_of_lt (rom_lt _ _)] at h

/-- Half of `m + 1` is the only number below `m` whose double is 1 modulo `m`. -/
theorem eq_half_of_mul_two_mod {m n : Nat} (hlt : n < m) (h : n * 2 % m = 1) : n = (m + 1) / 2 := by
  rcases Nat.lt_or_ge (n * 2) m with hsmall | hlarge
  · rw [Nat.mod_eq_of_lt hsmall] at h
    omega
  · rw [Nat.mod_eq_sub_mod hlarge, Nat.mod_eq_of_lt (by omega)] at h
    omega

theorem rom_invLen_one : (rom 2 1).toNat = (MOD + 1) / 2 := by
  have h := rom_invLen_mul 1
  rw [pow_one] at h
  exact eq_half_of_mul_two_mod (rom_lt 2 1) h

/-! ## The entries and `LDT` -/

/-- Every entry of every table has an inverse in the field. -/
theorem one_le_rom_toNat (t k : Nat) : 1 ≤ (rom t k).toNat := by
  match t with
  | 0 => exact one_le_toNat_of_fieldElem_mul (root_mul_other .fwd k)
  | 1 => exact one_le_toNat_of_fieldElem_mul (root_mul_other .inv k)
  | _ + 2 => exact one_le_toNat_of_fieldElem_mul (w := rom 2 k) (fieldElem_rom_invLen_mul k)

theorem exec_ldt_entry (s : State) (rd : Reg) {t k : Nat} (ht : t ≤ 2) (hk : k ≤ 23) :
    exec (.ldt rd t k) s = .next (s.setX rd (rom t k)) := by
  simp only [exec, execLdt, (romRead_eq_some_iff t k _).2 ⟨⟨ht, hk⟩, rfl⟩]

theorem exec_ldt_noEntry (s : State) (rd : Reg) {t k : Nat} (h : 2 < t ∨ 23 < k) :
    exec (.ldt rd t k) s = .next (takeFault .addr s) := by
  simp only [exec, execLdt, (romRead_eq_none_iff t k).2 h]

/-! ## The obligations -/

/-- Settles O16: the laws of the field elements, read on the entries' numbers; the special entries are
the laws at `k = 0` and `k = 1`, and the generators at `k = 23`. -/
theorem tableLaws : Obligations.TableLaws := by
  refine ⟨fun k hk => ?entry, fun k hpos hk => ?next, ?special, fun s rd t k ht hk => ?loaded⟩
  case entry => exact ⟨rom_root_pow_full .fwd hk, rom_root_mul_invRoot k, rom_invLen_mul k⟩
  case next =>
    obtain ⟨j, rfl⟩ := Nat.exists_eq_add_of_le' hpos
    have hj : j < 23 := hk
    have hlen : (rom 2 (j + 1)).toNat = (rom 2 j).toNat * (rom 2 1).toNat % MOD := by
      rw [rom_invLen_succ, mulMod_toNat]
    exact ⟨rom_root_pow_half .fwd hj, rom_root_sq .fwd hj, rom_root_sq .inv hj, hlen⟩
  case special =>
    exact ⟨rom_root_zero .fwd, rom_root_zero .inv, rom_invLen_zero, rom_root_one .fwd, rom_root_one .inv,
      rom_root_last, rom_invRoot_last, rom_invLen_one⟩
  case loaded =>
    refine ⟨_, exec_ldt_entry s rd ht hk, State.getX_setX_self s rd _, ?_⟩
    rw [State.getX_setX_self]
    exact ⟨one_le_rom_toNat t k, rom_lt t k⟩

/-- Settles O14: an entry that exists is written to `x[rd]` with the value of rule R90. -/
theorem tableLoad : Obligations.TableLoad := by
  intro s rd t k
  constructor
  · intro ht hk
    refine ⟨_, exec_ldt_entry s rd ht hk, onlyRegister_setX rd s _, ?_⟩
    rw [State.getX_setX_self]
    refine ⟨?root, ?invRoot, ?invLen⟩
    case root => rintro rfl; exact rom_root_toNat k
    case invRoot => rintro rfl; exact rom_invRoot_toNat k
    case invLen => rintro rfl; exact rom_invLen_toNat k
  · intro hnone
    have hout : 2 < t ∨ 23 < k := by omega
    exact ⟨_, exec_ldt_noEntry s rd hout, onlyFault_takeFault .addr s⟩

/-- Settles O15: square-and-multiply is run for each of the 72 entries. -/
theorem tableContents : Obligations.TableContents := by
  refine ⟨?root, ?invRoot, ?invLen⟩ <;> decide +kernel

end Sys2Proof.Machine
end

section
/-! The operations of the transform engine on an array of field elements, no state yet: what rules R103 to
R110 compute in the field, and that the two directions undo each other. -/

namespace Sys2Proof.Machine

/-- An array of `2^L` field elements. -/
structure FieldWords (L : Nat) (a : List Word) : Prop where
  length_eq : a.length = 2 ^ L
  lt : ∀ p, p < 2 ^ L → (a.getD p 0).toNat < MOD

/-! ## Field elements stay field elements -/

section
variable {L : Nat} {a b : List Word}

theorem FieldWords.brev (h : FieldWords L a) : FieldWords L (brevArray L a) :=
  ⟨(length_brevArray L a).trans h.length_eq, brevArray_lt L a h.length_eq h.lt⟩

theorem FieldWords.bfly (h : FieldWords L a) (dir : Dir) : FieldWords L (bflyArray dir L a) :=
  ⟨length_bflyArray dir L a h.length_eq, bflyArray_lt dir L a h.length_eq h.lt⟩

theorem FieldWords.ntt (h : FieldWords L a) (dir : Dir) : FieldWords L (nttArray dir L a) :=
  ⟨length_nttArray dir L a h.length_eq, nttArray_lt dir L a h.length_eq h.lt⟩

theorem FieldWords.pmul (ha : FieldWords L a) (hb : FieldWords L b) : FieldWords L (pmulArray a b) := by
  refine ⟨by rw [length_pmulArray, ha.length_eq, hb.length_eq, min_self], fun p hp => ?_⟩
  rw [getD_pmulArray a b p (by rwa [ha.length_eq]) (by rwa [hb.length_eq])]
  exact mulMod_lt _ _

/-- Arrays that stand for the same field elements are the same words. -/
theorem FieldWords.ext (ha : FieldWords L a) (hb : FieldWords L b)
    (h : ∀ p, p < 2 ^ L → fieldElem (a.getD p 0) = fieldElem (b.getD p 0)) : a = b := by
  apply list_ext_getD (ha.length_eq.trans hb.length_eq.symm)
  intro p hp
  rw [ha.length_eq] at hp
  exact eq_of_fieldElem_eq (ha.lt p hp) (hb.lt p hp) (h p hp)

/-! ## Bit reversal -/

theorem brevArray_brevArray (ha : a.length = 2 ^ L) : brevArray L (brevArray L a) = a := by
  apply list_ext_getD (by simp only [length_brevArray])
  intro p hp
  simp only [length_brevArray, ha] at hp
  rw [getD_brevArray L _ (by rwa [length_brevArray]) p hp, getD_brevArray L a ha _ (rev_lt L p), rev_rev L p hp]

/-! ## One stage -/

/-- The one butterfly of two words, with twiddle 1 in both directions (rules R104, R105). -/
theorem bflyArray_pair (dir : Dir) {q : Word} (p : Word) (hq : q.toNat < MOD) :
    bflyArray dir 1 [p, q] = [addMod p q, subMod p q] := by
  have h : bflyArray dir 1 [p, q] = [addMod p (mulMod q 1), subMod p (mulMod q 1)] := rfl
  rw [h, mulMod_one hq]

/-! ## One word (rule R112) -/

theorem brevArray_zero (a : List Word) : brevArray 0 a = a := rfl

theorem bflyArray_zero (dir : Dir) (a : List Word) : bflyArray dir 0 a = a := rfl

theorem FieldWords.scaleArray_zero (h : FieldWords 0 a) : scaleArray 0 a = a := by
  apply list_ext_getD (length_scaleArray 0 a)
  intro p hp
  rw [length_scaleArray] at hp
  rw [getD_scaleArray 0 a p hp, rom_invLen_zero, mulMod_one (h.lt p (by rwa [← h.length_eq]))]

theorem FieldWords.nttArray_zero (h : FieldWords 0 a) (dir : Dir) : nttArray dir 0 a = a := by
  cases dir with
  | fwd => exact (bflyArray_zero .fwd _).trans (brevArray_zero a)
  | inv => rw [nttArray, bflyArray_zero, brevArray_zero, h.scaleArray_zero]

/-! ## The transform and its inverse -/

/-- The factor by which a direction scales its sums (rule R106). -/
def lengthFactor : Dir → Nat → ZMod MOD
  | .fwd, _ => 1
  | .inv, L => fieldElem (rom 2 L)

theorem lengthFactor_other_mul (dir : Dir) (L : Nat) :
    lengthFactor (otherDir dir) L * lengthFactor dir L = fieldElem (rom 2 L) := by
  cases dir
  · exact mul_one _
  · exact one_mul _

/-- The closed form of rule R108, in both directions. -/
theorem fieldElem_nttArray (dir : Dir) (hL : L ≤ 23) (ha : a.length = 2 ^ L) {m : Nat} (hm : m < 2 ^ L) :
    fieldElem ((nttArray dir L a).getD m 0) =
      lengthFactor dir L * ∑ j ∈ Finset.range (2 ^ L), fieldElem (a.getD j 0) * root dir L ^ (m * j) := by
  have sums := fun dir => fieldElem_bflyArray_brevArray dir L a ha hL m hm
  cases dir with
  | fwd => exact (sums .fwd).trans (one_mul _).symm
  | inv =>
    have hlen : (bflyArray .inv L (brevArray L a)).length = 2 ^ L :=
      length_bflyArray .inv L _ ((length_brevArray L a).trans ha)
    rw [nttArray, getD_scaleArray L _ m (by rwa [hlen]), fieldElem_mulMod, sums, mul_comm, lengthFactor]

/-- Rule R109: the two scalings together divide by the length, and the roots are orthogonal. -/
theorem nttArray_other_nttArray (dir : Dir) (hL : L ≤ 23) (ha : FieldWords L a) :
    nttArray (otherDir dir) L (nttArray dir L a) = a := by
  have hlen := ha.length_eq
  apply ((ha.ntt dir).ntt (otherDir dir)).ext ha
  intro i hi
  have inner : ∀ m ∈ Finset.range (2 ^ L),
      fieldElem ((nttArray dir L a).getD m 0) * root (otherDir dir) L ^ (i * m) = lengthFactor dir L *
        ((∑ j ∈ Finset.range (2 ^ L), fieldElem (a.getD j 0) * root dir L ^ (m * j)) *
          root (otherDir dir) L ^ (i * m)) := by
    intro m hm
    rw [fieldElem_nttArray dir hL hlen (Finset.mem_range.1 hm), mul_assoc]
  rw [fieldElem_nttArray (otherDir dir) hL (length_nttArray dir L a hlen) hi, Finset.sum_congr rfl inner,
    ← Finset.mul_sum, ← mul_assoc, lengthFactor_other_mul]
  exact double_transform dir L hL (fun j => fieldElem (a.getD j 0)) i hi

/-! ## The cyclic convolution -/

/-- Rule R110: the inverse transform of the products of two forward transforms. -/
theorem fieldElem_convolution (hL : L ≤ 23) (ha : a.length = 2 ^ L) (hb : b.length = 2 ^ L) {m : Nat}
    (hm : m < 2 ^ L) :
    fieldElem ((nttArray .inv L (pmulArray (nttArray .fwd L a) (nttArray .fwd L b))).getD m 0) =
      ∑ j ∈ Finset.range (2 ^ L),
        fieldElem (a.getD j 0) * fieldElem (b.getD ((m + 2 ^ L - j) % 2 ^ L) 0) := by
  have hA := length_nttArray .fwd L a ha
  have hB := length_nttArray .fwd L b hb
  have products : ∀ k ∈ Finset.range (2 ^ L),
      fieldElem ((pmulArray (nttArray .fwd L a) (nttArray .fwd L b)).getD k 0) =
        ∑ i ∈ Finset.range (2 ^ L), (∑ j ∈ Finset.range (2 ^ L),
          fieldElem (a.getD j 0) * fieldElem (b.getD ((i + 2 ^ L - j) % 2 ^ L) 0)) * root .fwd L ^ (k * i) := by
    intro k hk
    have hk := Finset.mem_range.1 hk
    rw [getD_pmulArray _ _ k (by rwa [hA]) (by rwa [hB]), fieldElem_mulMod, fieldElem_nttArray .fwd hL ha hk,
      fieldElem_nttArray .fwd hL hb hk, lengthFactor, one_mul, one_mul]
    exact transform_mul_transform L hL .fwd (fun j => fieldElem (a.getD j 0)) (fun j => fieldElem (b.getD j 0)) k
  rw [fieldElem_nttArray .inv hL (by rw [length_pmulArray, hA, hB, min_self]) hm,
    Finset.sum_congr rfl fun k hk => congrArg (· * root .inv L ^ (m * k)) (products k hk)]
  exact double_transform .fwd L hL _ m hm

end

/-- Where the occupied lengths fit, an index that wraps round meets a zero: the cyclic convolution is the
ordinary product. -/
theorem sum_cyclic_eq_sum_product {n lenA lenB m : Nat} {a b : Nat → Nat} (hlen : lenA + lenB ≤ n)
    (ha : ∀ j, lenA ≤ j → j < n → a j = 0) (hb : ∀ j, lenB ≤ j → j < n → b j = 0) (hm : m < n) :
    ∑ j ∈ Finset.range n, a j * b ((m + n - j) % n) = ∑ j ∈ Finset.range (m + 1), a j * b (m - j) := by
  have wrapped : ∀ j ∈ Finset.range n, j ∉ Finset.range (m + 1) → a j * b ((m + n - j) % n) = 0 := by
    intro j hj hout
    have hj := Finset.mem_range.1 hj
    have hmj : m < j := by simpa using hout
    by_cases hA : lenA ≤ j
    · rw [ha j hA hj, zero_mul]
    · rw [Nat.mod_eq_of_lt (by omega : m + n - j < n), hb (m + n - j) (by omega) (by omega), mul_zero]
  rw [← Finset.sum_subset (Finset.range_subset_range.2 hm) wrapped]
  apply Finset.sum_congr rfl
  intro j hj
  have hj : j ≤ m := Nat.lt_succ_iff.1 (Finset.mem_range.1 hj)
  rw [show m + n - j = m - j + n by omega, Nat.add_mod_right, Nat.mod_eq_of_lt (by omega)]

end Sys2Proof.Machine
end

section
/-! The commands of the transform engine on a state (rules R100 to R113): the bank's array is replaced by the
operation's answer, and what holds of the operation holds of the bank. -/

namespace Sys2Proof.Machine

/-! ## `SETN` -/

theorem exec_setn_le (s : State) {logn : Nat} (h : logn ≤ 23) :
    exec (.setn logn) s = .next (s.setLogn (BitVec.ofNat 5 logn)) := if_neg (not_lt.2 h)

theorem exec_setn_gt (s : State) {logn : Nat} (h : 23 < logn) : exec (.setn logn) s = .next (takeFault .size s) :=
  if_pos h

theorem State.logLength_setLogn (s : State) {logn : Nat} (h : logn ≤ 23) :
    (s.setLogn (BitVec.ofNat 5 logn)).logLength = logn := by
  rw [State.logLength, State.setLogn_logn, BitVec.toNat_ofNat, Nat.mod_eq_of_lt (by omega)]

/-! ## The array of a bank -/

section
variable {s : State} {bd : BankId}

theorem FieldArray.words (h : FieldArray s bd) : FieldWords s.logLength (s.array bd) :=
  ⟨s.length_array bd, h.getD_array⟩

theorem FieldWords.fieldArray {L : Nat} {ws : List Word} (h : FieldWords L ws) (hL : s.logLength = L)
    (hs : s.array bd = ws) : FieldArray s bd := by
  subst hL hs
  intro i hi
  rw [← State.getD_array s bd hi]
  exact h.lt i hi

theorem FieldWords.fieldArray_setArray {ws : List Word} (h : FieldWords s.logLength ws) :
    FieldArray (s.setArray bd ws) bd := FieldArray.setArray h.length_eq h.lt

/-- Writing back the array that was read changes nothing, the bank being in canonical form. -/
theorem State.setArray_array (hs : s.Inv) (bd : BankId) : s.setArray bd (s.array bd) = s :=
  State.setArray_eq_self hs bd _ (s.length_array bd) fun _ hi => s.getD_array bd hi

/-- A command that acts on the array another one left acts on that command's words. -/
theorem State.setArray_then (hs : s.Inv) {ws : List Word} (hl : ws.length = s.length)
    (f : Nat → List Word → List Word) (hf : (f s.logLength ws).length = s.length) :
    (s.setArray bd ws).setArray bd (f (s.setArray bd ws).logLength ((s.setArray bd ws).array bd)) =
      s.setArray bd (f s.logLength ws) := by
  rw [State.logLength_setArray, State.array_setArray s bd ws hl, State.setArray_setArray hs bd ws _ hl hf]

/-! ## What a command that replaces an array leaves -/

theorem OnlyArray.logLength {n : Nat} {t : State} (h : OnlyArray bd n s t) : t.logLength = s.logLength := by
  obtain ⟨-, -, ⟨hlogn, -⟩, -⟩ := h
  exact State.logLength_eq s t hlogn

theorem OnlyArray.fault {n : Nat} {t : State} (h : OnlyArray bd n s t) : t.fault = s.fault := by
  obtain ⟨-, -, -, hfault, -⟩ := h
  exact hfault

/-- The array of the other bank is as before. -/
theorem OnlyArray.array_ne {n : Nat} {t : State} (h : OnlyArray bd n s t) {c : BankId} (hc : c ≠ bd) :
    t.array c = s.array c := by
  obtain ⟨-, ⟨-, hother⟩, ⟨hlogn, -⟩, -⟩ := h
  have hlen := State.length_eq s t hlogn
  apply list_ext_getD (by rw [State.length_array, State.length_array, hlen])
  intro i hi
  rw [State.length_array] at hi
  rw [State.getD_array t c hi, State.getD_array s c (by omega), hother c hc i (Nat.zero_le i)]

theorem setArray_onlyArray_array {ws : List Word} (h : FieldWords s.logLength ws) :
    OnlyArray bd s.length s (s.setArray bd ws) ∧ (s.setArray bd ws).array bd = ws :=
  ⟨onlyArray_setArray s bd ws h.length_eq, State.array_setArray s bd ws h.length_eq⟩

theorem exec_ntt_array (bd : BankId) (dir : Dir) (hn : s.logLength ≤ 23) (hf : FieldArray s bd) :
    ∃ t, exec (.ntt bd dir) s = .next t ∧ OnlyArray bd s.length s t ∧
      t.array bd = nttArray dir s.logLength (s.array bd) :=
  ⟨_, exec_ntt bd dir hn hf, setArray_onlyArray_array (hf.words.ntt dir)⟩

theorem exec_pmul_array (bd bs : BankId) (hn : s.logLength ≤ 23) (hf : FieldArray s bd) (hg : FieldArray s bs) :
    ∃ t, exec (.pmul bd bs) s = .next t ∧ OnlyArray bd s.length s t ∧
      t.array bd = pmulArray (s.array bd) (s.array bs) :=
  ⟨_, exec_pmul bd bs hn hf hg, setArray_onlyArray_array (hf.words.pmul hg.words)⟩

/-! ## The range check (rule R100) -/

theorem rangeCheck_of_not_fieldArray (h : ¬ FieldArray s bd) : rangeCheck s bd = false :=
  Bool.eq_false_iff.2 (mt (rangeCheck_iff s bd).1 h)

/-- The commands that read the array they overwrite take `F_RANGE` if it is not one of field elements. -/
theorem exec_rangeFault {dir : Dir} {i : Instr} (hn : s.logLength ≤ 23)
    (hi : i = .bfly bd dir ∨ i = .scal bd ∨ i = .ntt bd dir) (hf : ¬ FieldArray s bd) :
    exec i s = .next (rangeFaultArray bd s) := by
  have hcheck := rangeCheck_of_not_fieldArray hf
  rcases hi with rfl | rfl | rfl
  · exact vectorOp_fail bd _ hn hcheck
  · exact vectorOp_fail bd _ hn hcheck
  · exact vectorOp_fail bd _ hn hcheck

/-- `PMUL` checks both banks. -/
theorem exec_pmul_rangeFault {bs : BankId} (hn : s.logLength ≤ 23) (h : ¬ FieldArray s bd ∨ ¬ FieldArray s bs) :
    exec (.pmul bd bs) s = .next (rangeFaultArray bd s) := by
  have hcheck : (rangeCheck s bd && rangeCheck s bs) = false :=
    Bool.and_eq_false_iff.2 (h.imp rangeCheck_of_not_fieldArray rangeCheck_of_not_fieldArray)
  exact vectorOp_fail bd (fun a => pmulArray a (s.array bs)) hn hcheck

/-! ## The closed forms (rule R108) -/

/-- The stages compute the sums over the bit-reversed array. -/
theorem fieldElem_bflyArray_array (dir : Dir) (hn : s.logLength ≤ 23) {m : Nat} (hm : m < s.length) :
    fieldElem ((bflyArray dir s.logLength (s.array bd)).getD m 0) =
      ∑ j ∈ Finset.range s.length, fieldElem (s.word bd (rev s.logLength j)) * root dir s.logLength ^ (m * j) := by
  rw [fieldElem_bflyArray dir _ _ (s.length_array bd) hn m hm]
  exact Finset.sum_congr rfl fun j _ => by rw [State.getD_array s bd (rev_lt _ j)]

/-- The whole transform computes the sums over the array, scaled by its direction's factor. -/
theorem fieldElem_nttArray_array (dir : Dir) (hn : s.logLength ≤ 23) {m : Nat} (hm : m < s.length) :
    fieldElem ((nttArray dir s.logLength (s.array bd)).getD m 0) = lengthFactor dir s.logLength *
      ∑ j ∈ Finset.range s.length, fieldElem (s.word bd j) * root dir s.logLength ^ (m * j) := by
  rw [fieldElem_nttArray dir hn (s.length_array bd) hm]
  congr 1
  exact Finset.sum_congr rfl fun j hj => by rw [State.getD_array s bd (Finset.mem_range.1 hj)]

theorem toNat_nttArray_fwd (hn : s.logLength ≤ 23) (hf : FieldArray s bd) {m : Nat} (hm : m < s.length) :
    ((nttArray .fwd s.logLength (s.array bd)).getD m 0).toNat =
      (∑ j ∈ Finset.range s.length, (s.word bd j).toNat * (rom 0 s.logLength).toNat ^ (m * j)) % MOD := by
  apply toNat_of_fieldElem ((hf.words.ntt .fwd).lt m hm)
  rw [fieldElem_nttArray_array .fwd hn hm, lengthFactor, one_mul]
  push_cast
  rfl

theorem toNat_nttArray_inv (hn : s.logLength ≤ 23) (hf : FieldArray s bd) {m : Nat} (hm : m < s.length) :
    ((nttArray .inv s.logLength (s.array bd)).getD m 0).toNat = (rom 2 s.logLength).toNat *
      (∑ j ∈ Finset.range s.length, (s.word bd j).toNat * (rom 1 s.logLength).toNat ^ (m * j)) % MOD := by
  apply toNat_of_fieldElem ((hf.words.ntt .inv).lt m hm)
  rw [fieldElem_nttArray_array .inv hn hm]
  push_cast
  rfl

/-! ## Commands one after the other -/

/-- `BREV` and then `BFLY`, whatever follows. -/
theorem execAll_brev_bfly (hs : s.Inv) (hf : FieldArray s bd) (dir : Dir) (is : List Instr) :
    execAll (.brev bd :: .bfly bd dir :: is) s =
      execAll is (s.setArray bd (bflyArray dir s.logLength (brevArray s.logLength (s.array bd)))) := by
  have hn := hs.1
  have hw := hf.words.brev
  rw [execAll_cons_of_exec _ (exec_brev bd hn),
    execAll_cons_of_exec _ (exec_bfly bd dir (by rwa [State.logLength_setArray]) hw.fieldArray_setArray),
    State.setArray_then hs hw.length_eq (bflyArray dir) (hw.bfly dir).length_eq]

/-- Rule R109, in the order that begins with `dir`. -/
theorem execAll_ntt_other (hs : s.Inv) (hf : FieldArray s bd) (dir : Dir) :
    execAll [.ntt bd dir, .ntt bd (otherDir dir)] s = some s := by
  have hn := hs.1
  have hw := hf.words.ntt dir
  rw [execAll_cons_of_exec _ (exec_ntt bd dir hn hf),
    execAll_cons_of_exec _ (exec_ntt bd (otherDir dir) (by rwa [State.logLength_setArray]) hw.fieldArray_setArray),
    State.setArray_then hs hw.length_eq (nttArray (otherDir dir)) (hw.ntt _).length_eq,
    nttArray_other_nttArray dir hn hf.words, State.setArray_array hs bd, execAll]

/-- The arrays the four commands of rule R110 leave. -/
theorem execAll_convolution (hn : s.logLength ≤ 23) (ha : FieldArray s .A) (hb : FieldArray s .B) :
    ∃ t, execAll [.ntt .A .fwd, .ntt .B .fwd, .pmul .A .B, .ntt .A .inv] s = some t ∧
      t.logLength = s.logLength ∧ t.fault = s.fault ∧
      t.array .A = nttArray .inv s.logLength (pmulArray (nttArray .fwd s.logLength (s.array .A))
        (nttArray .fwd s.logLength (s.array .B))) ∧
      t.array .B = nttArray .fwd s.logLength (s.array .B) := by
  have hwA := ha.words.ntt .fwd
  have hwB := hb.words.ntt .fwd
  have hBA : BankId.B ≠ .A := by decide
  obtain ⟨t₁, e₁, o₁, a₁⟩ := exec_ntt_array .A .fwd hn ha
  have l₁ := o₁.logLength
  have b₁ : t₁.array .B = s.array .B := o₁.array_ne hBA
  obtain ⟨t₂, e₂, o₂, b₂⟩ := exec_ntt_array .B .fwd (l₁ ▸ hn) (hb.words.fieldArray l₁ b₁)
  have l₂ := o₂.logLength.trans l₁
  have a₂ := (o₂.array_ne hBA.symm).trans a₁
  rw [l₁, b₁] at b₂
  obtain ⟨t₃, e₃, o₃, a₃⟩ := exec_pmul_array .A .B (l₂ ▸ hn) (hwA.fieldArray l₂ a₂) (hwB.fieldArray l₂ b₂)
  have l₃ := o₃.logLength.trans l₂
  have b₃ := (o₃.array_ne hBA).trans b₂
  rw [a₂, b₂] at a₃
  obtain ⟨t₄, e₄, o₄, a₄⟩ := exec_ntt_array .A .inv (l₃ ▸ hn) ((hwA.pmul hwB).fieldArray l₃ a₃)
  rw [l₃, a₃] at a₄
  refine ⟨t₄, ?_, o₄.logLength.trans l₃, ?_, a₄, (o₄.array_ne hBA).trans b₃⟩
  · rw [execAll_cons_of_exec _ e₁, execAll_cons_of_exec _ e₂, execAll_cons_of_exec _ e₃,
      execAll_cons_of_exec _ e₄, execAll]
  · rw [o₄.fault, o₃.fault, o₂.fault, o₁.fault]

/-- Rule R110 as numbers: the cyclic convolution. -/
theorem toNat_convolution (hn : s.logLength ≤ 23) (ha : FieldArray s .A) (hb : FieldArray s .B) {m : Nat}
    (hm : m < s.length) :
    ((nttArray .inv s.logLength (pmulArray (nttArray .fwd s.logLength (s.array .A))
      (nttArray .fwd s.logLength (s.array .B)))).getD m 0).toNat =
      (∑ j ∈ Finset.range s.length,
        (s.word .A j).toNat * (s.word .B ((m + s.length - j) % s.length)).toNat) % MOD := by
  have hw := ((ha.words.ntt .fwd).pmul (hb.words.ntt .fwd)).ntt .inv
  apply toNat_of_fieldElem (hw.lt m hm)
  rw [fieldElem_convolution hn ha.words.length_eq hb.words.length_eq hm, Nat.cast_sum]
  apply Finset.sum_congr rfl
  intro j hj
  have hwrap : (m + 2 ^ s.logLength - j) % 2 ^ s.logLength < s.length := Nat.mod_lt _ s.length_pos
  rw [State.getD_array s .A (Finset.mem_range.1 hj), State.getD_array s .B hwrap, Nat.cast_mul]
  rfl

/-! ## One word (rule R112) -/

theorem fieldArray_iff_of_length_one (h : s.length = 1) : FieldArray s bd ↔ (s.word bd 0).toNat < MOD := by
  simp only [FieldArray, h, Nat.lt_one_iff, forall_eq]

end

end Sys2Proof.Machine
end

section
/-! The obligations of the transform engine (42_ntt_engine.md). -/

namespace Sys2Proof.Machine

/-- Settles O21: five bits hold every length up to 23. -/
theorem setLength : Obligations.SetLength := by
  refine fun s logn => ⟨fun h => ?sets, fun h => ⟨_, exec_setn_gt s h, onlyFault_takeFault .size s⟩⟩
  case sets =>
    exact ⟨_, exec_setn_le s h, s.logLength_setLogn h, fun _ => rfl, fun _ _ _ => State.setLogn_word .., rfl, rfl,
      ⟨rfl, rfl⟩, rfl⟩

/-- Settles O22: each pair of indices is exchanged once, and `rev` is the sum of rule R101. -/
theorem bitReversalPermutes : Obligations.BitReversalPermutes := by
  intro s bd hn
  have hlen : (brevArray s.logLength (s.array bd)).length = s.length := by simp
  refine ⟨_, exec_brev bd hn, onlyArray_setArray s bd _ hlen, fun i hi => ?_⟩
  rw [State.word_setArray_lt s bd _ hlen i hi, getD_brevArray _ _ (s.length_array bd) i hi,
    State.getD_array s bd (rev_lt _ i), rev_eq_sum]

/-- Settles O23: reversing the bits of an index twice gives it back. -/
theorem bitReversalTwiceRestores : Obligations.BitReversalTwiceRestores := by
  intro s bd hs
  have hn := hs.1
  have hlen : (brevArray s.logLength (s.array bd)).length = s.length := by simp
  rw [execAll_cons_of_exec _ (exec_brev bd hn),
    execAll_cons_of_exec _ (exec_brev bd (by rwa [State.logLength_setArray])),
    State.setArray_then hs hlen brevArray (by rw [length_brevArray, hlen]), brevArray_brevArray (s.length_array bd),
    State.setArray_array hs bd, execAll]

/-- Settles O24: after all stages the one block is the array, by induction on the stages
(`fieldElem_bflyStages`). -/
theorem butterflyStages : Obligations.ButterflyStages := by
  intro s bd dir hn hf
  have hw := hf.words.bfly dir
  refine ⟨_, exec_bfly bd dir hn hf, onlyArray_setArray s bd _ hw.length_eq, fun m hm => ?_⟩
  rw [State.word_setArray_lt s bd _ hw.length_eq m hm]
  apply toNat_of_fieldElem (hw.lt m hm)
  rw [fieldElem_bflyArray_array dir hn hm]
  push_cast
  rfl

/-- Settles O25: the one stage has one block of one butterfly, whose twiddle is 1 in both directions. -/
theorem singleButterfly : Obligations.SingleButterfly := by
  intro s bd dir h1 hf
  have hn : s.logLength ≤ 23 := by omega
  have h2 : s.length = 2 := by rw [State.length, h1, pow_one]
  have harray : s.array bd = [s.word bd 0, s.word bd 1] := by rw [State.array, h2]; rfl
  have hpair : bflyArray dir s.logLength (s.array bd) =
      [addMod (s.word bd 0) (s.word bd 1), subMod (s.word bd 0) (s.word bd 1)] := by
    rw [h1, harray, bflyArray_pair dir _ (hf 1 (by omega))]
  have hlen := (hf.words.bfly dir).length_eq
  refine ⟨_, exec_bfly bd dir hn hf, h2 ▸ onlyArray_setArray s bd _ hlen, ?sum, ?difference⟩
  case sum =>
    rw [State.word_setArray_lt s bd _ hlen 0 (by omega), hpair]
    exact addMod_toNat _ _
  case difference =>
    rw [State.word_setArray_lt s bd _ hlen 1 (by omega), hpair]
    exact subMod_toNat_intCast _ _

/-- Settles O26: the multiplication of rule R76 in each lane. -/
theorem inverseScaling : Obligations.InverseScaling := by
  intro s bd hn hf
  have hlen : (scaleArray s.logLength (s.array bd)).length = s.length := by simp
  refine ⟨_, exec_scal bd hn hf, onlyArray_setArray s bd _ hlen, fun i hi => ?_⟩
  rw [State.word_setArray_lt s bd _ hlen i hi, getD_scaleArray _ _ i (by rwa [State.length_array]), mulMod_toNat,
    State.getD_array s bd hi]

/-- Settles O27: each command acts on the array the one before it left, as rule R107 composes them. -/
theorem transformIsItsSteps : Obligations.TransformIsItsSteps := by
  intro s bd hs hf
  have hn := hs.1
  have hw := hf.words.brev.bfly .inv
  refine ⟨⟨_, exec_ntt bd .fwd hn hf, execAll_brev_bfly hs hf .fwd []⟩, ⟨_, exec_ntt bd .inv hn hf, ?_⟩⟩
  rw [execAll_brev_bfly hs hf .inv,
    execAll_cons_of_exec _ (exec_scal bd (by rwa [State.logLength_setArray]) hw.fieldArray_setArray),
    State.setArray_then hs hw.length_eq scaleArray (by rw [length_scaleArray]; exact hw.length_eq)]
  rfl

/-- Settles O28: bit reversal undoes the order in which the stages read the array, and the inverse scales. -/
theorem transformIsTheDft : Obligations.TransformIsTheDft := by
  intro s bd hn hf
  have hlen : ∀ dir, (nttArray dir s.logLength (s.array bd)).length = s.length := fun dir =>
    (hf.words.ntt dir).length_eq
  refine ⟨⟨_, exec_ntt bd .fwd hn hf, onlyArray_setArray s bd _ (hlen .fwd), fun m hm => ?_⟩,
    ⟨_, exec_ntt bd .inv hn hf, onlyArray_setArray s bd _ (hlen .inv), fun m hm => ?_⟩⟩
  · rw [State.word_setArray_lt s bd _ (hlen .fwd) m hm, toNat_nttArray_fwd hn hf hm]
  · rw [State.word_setArray_lt s bd _ (hlen .inv) m hm, toNat_nttArray_inv hn hf hm]

/-- Settles O29: the two directions undo each other on the array, and the rest of the state is not written. -/
theorem transformRoundTrip : Obligations.TransformRoundTrip := fun _ _ hs hf =>
  ⟨execAll_ntt_other hs hf .fwd, execAll_ntt_other hs hf .inv⟩

/-- Settles O30: the product of two transforms is the transform of the cyclic convolution, which is the
ordinary product where no index wraps round to a word that is not 0. -/
theorem convolutionTheorem : Obligations.ConvolutionTheorem := by
  intro s hn ha hb
  obtain ⟨t, hrun, hlog, hfault, hA, hB⟩ := execAll_convolution hn ha hb
  have hlength : t.length = s.length := by rw [State.length, hlog, State.length]
  have cyclic : ∀ m, m < s.length → (t.word .A m).toNat = (∑ j ∈ Finset.range s.length,
      (s.word .A j).toNat * (s.word .B ((m + s.length - j) % s.length)).toNat) % MOD := by
    intro m hm
    rw [← State.getD_array t .A (hlength ▸ hm), hA, toNat_convolution hn ha hb hm]
  refine ⟨t, hrun, hfault, cyclic, fun m hm => ?spectrum, fun lenA lenB hfit hzA hzB m hm => ?product⟩
  case spectrum => rw [← State.getD_array t .B (hlength ▸ hm), hB, toNat_nttArray_fwd hn hb hm]
  case product =>
    have zero : ∀ {w : Word}, w = 0 → w.toNat = 0 := fun h => congrArg BitVec.toNat h
    rw [cyclic m hm, sum_cyclic_eq_sum_product (a := fun j => (s.word .A j).toNat)
      (b := fun j => (s.word .B j).toNat) hfit (fun j h hj => zero (hzA j h hj)) (fun j h hj => zero (hzB j h hj)) hm]

/-- Settles O31: on one word `BREV` and `BFLY` are the identity, and `SCAL` multiplies by 1. -/
theorem lengthOneIsTheIdentity : Obligations.LengthOneIsTheIdentity := by
  intro s bd dir hs hlogn
  have hn := hs.1
  have h0 : s.logLength = 0 := by rw [State.logLength, hlogn]; rfl
  have h1 : s.length = 1 := by rw [State.length, h0, pow_zero]
  have hfield := fieldArray_iff_of_length_one (bd := bd) h1
  have hself := State.setArray_array hs bd
  refine ⟨?brev, fun hlt => ?pass, fun hge i hi => ?fail⟩
  case brev => rw [exec_brev bd hn, h0, brevArray_zero, hself]
  case pass =>
    have hf := hfield.2 hlt
    have hw : FieldWords 0 (s.array bd) := h0 ▸ hf.words
    refine ⟨?_, ?_, ?_⟩
    · rw [exec_bfly bd dir hn hf, h0, bflyArray_zero, hself]
    · rw [exec_scal bd hn hf, h0, hw.scaleArray_zero, hself]
    · rw [exec_ntt bd dir hn hf, h0, hw.nttArray_zero dir, hself]
  case fail =>
    have hf : ¬ FieldArray s bd := fun h => (hfield.1 h).not_ge hge
    exact ⟨_, exec_rangeFault hn hi hf, rfl⟩

/-- Settles O33: the frame of `F_RANGE`, and the outcome of each command where the check passes. -/
theorem vectorRangeFault : Obligations.VectorRangeFault := by
  intro s bd bs dir i hn
  refine ⟨fun h => ⟨_, ?fails, rangeFaultArray_frame bd s⟩, ?passes⟩
  case fails =>
    rcases h with ⟨hi, hf⟩ | ⟨rfl, hf⟩
    · exact exec_rangeFault hn hi hf
    · exact exec_pmul_rangeFault hn hf
  case passes =>
    rintro (⟨rfl | rfl | rfl, hf⟩ | ⟨rfl, hf, hg⟩ | rfl)
    · exact ⟨_, exec_bfly bd dir hn hf, State.setArray_fault ..⟩
    · exact ⟨_, exec_scal bd hn hf, State.setArray_fault ..⟩
    · exact ⟨_, exec_ntt bd dir hn hf, State.setArray_fault ..⟩
    · exact ⟨_, exec_pmul bd bs hn hf hg, State.setArray_fault ..⟩
    · exact ⟨_, exec_brev bd hn, State.setArray_fault ..⟩

end Sys2Proof.Machine
end

section
/-! The carry pipeline (43_carry_normalize.md): the digits `NORM` stores and the count `TRIM` keeps, read on
the state. -/

namespace Sys2Proof.Machine

/-! ## Counts of words -/

/-- A count of words of a bank fits `LEN`. -/
theorem toNat_ofNat_of_le_DEPTH {n : Nat} (h : n ≤ DEPTH) : (BitVec.ofNat 32 n).toNat = n :=
  toNat_ofNat_of_lt_MOD (lt_of_le_of_lt h (by decide))

/-- Rule R121: past the longest array the bank has room for the nine slots a carry can grow. -/
theorem State.length_add_nine_le_DEPTH {s : State} (hn : s.logLength ≤ 23) : s.length + 9 ≤ DEPTH :=
  calc s.length + 9 ≤ 2 ^ 23 + 9 := Nat.add_le_add_right (Nat.pow_le_pow_right (by decide) hn) 9
    _ ≤ DEPTH := by decide

/-! ## Values -/

theorem valueOf_congr {s t : State} {b : BankId} {n : Nat} (h : ∀ i, i < n → t.word b i = s.word b i) :
    valueOf t b n = valueOf s b n := by
  simp only [valueOf_eq_sum]
  exact Finset.sum_congr rfl fun i hi => by rw [h i (Finset.mem_range.1 hi)]

/-- High slots that hold 0 add nothing to the number. -/
theorem valueOf_eq_of_zeros {s : State} {b : BankId} {m n : Nat} (hmn : m ≤ n)
    (h : ∀ i, m ≤ i → i < n → s.word b i = 0) : valueOf s b m = valueOf s b n := by
  simp only [valueOf_eq_sum]
  refine Finset.sum_subset (Finset.range_mono hmn) fun i hi him => ?_
  rw [h i (not_lt.1 (mt Finset.mem_range.2 him)) (Finset.mem_range.1 hi)]
  exact Nat.zero_mul _

theorem valueOf_array (s : State) (bd : BankId) : valueOf s bd s.length = listValue (s.array bd) :=
  valueOf_eq_listValue s bd s.length

theorem valueOf_setArray (s : State) (bd : BankId) (ws : List Word) :
    valueOf (s.setArray bd ws) bd ws.length = listValue ws := by
  rw [valueOf_eq_listValue, State.setArray, State.bank_setBank_self, Memory.readArray_writeArray]

@[simp] theorem State.setLen_valueOf (s : State) (v : Word) (b : BankId) (n : Nat) :
    valueOf (s.setLen v) b n = valueOf s b n := valueOf_congr fun _ _ => s.setLen_word v b _

/-! ## The commands -/

/-- The words past those written, and the other bank, are as before, however many words are written. -/
theorem sameBanksButArray_setArray (s : State) (bd : BankId) (ws : List Word) :
    SameBanksButArray bd ws.length s (s.setArray bd ws) := by
  refine ⟨fun i hi => ?_, fun b hb i _ => State.word_setArray_ne s ws hb i⟩
  rw [State.word_setArray, if_neg (fun ⟨_, hlt⟩ => absurd hlt (not_lt.2 hi))]

theorem SameBanksButArray.setLen {bd : BankId} {n : Nat} {s t : State} (h : SameBanksButArray bd n s t) (v : Word) :
    SameBanksButArray bd n s (t.setLen v) := by
  simpa only [SameBanksButArray, SameBank, SameBankFrom, State.setLen_word] using h

/-- `NORM` never runs past the bank: it stores the digits of the loop and counts them (rule R121). -/
theorem exec_norm {s : State} (bd : BankId) (hn : s.logLength ≤ 23) :
    ∃ ds, normLoop DEPTH (s.array bd) 0 = some ds ∧ ds.length ≤ s.length + 9 ∧
      exec (.norm bd) s = .next ((s.setArray bd ds).setLen (BitVec.ofNat 32 ds.length)) := by
  obtain ⟨ds, hds, hle⟩ := normLoop_total (s.array bd) DEPTH 0 (Nat.zero_le _)
    (by rw [State.length_array]; exact State.length_add_nine_le_DEPTH hn)
  rw [State.length_array] at hle
  exact ⟨ds, hds, hle, by simp only [exec, execNorm, hds]⟩

theorem exec_trim {s : State} (bd : BankId) (h : s.len.toNat ≤ DEPTH) :
    exec (.trim bd) s = .next (s.setLen (BitVec.ofNat 32 (trimCount (s.word bd) s.len.toNat))) := if_pos h

/-! ## The obligations -/

/-- Settles O35: the loop's digits and their value (`normLoop_spec`) are those of the bank's first words. -/
theorem normalizeKeepsTheValue : Obligations.NormalizeKeepsTheValue := by
  intro s bd hn
  obtain ⟨ds, hds, hle, hexec⟩ := exec_norm bd hn
  obtain ⟨hge, hdigit, hvalue⟩ := normLoop_spec _ _ _ _ hds
  have hlast := normLoop_last _ _ _ _ hds
  rw [State.length_array] at hge hlast
  have hlen := toNat_ofNat_of_le_DEPTH (normLoop_length_le _ _ _ _ hds)
  have hword : ∀ i, i < ds.length → (s.setArray bd ds).word bd i = ds.getD i 0 := fun i hi => by
    rw [State.word_setArray, if_pos ⟨rfl, hi⟩]
  refine ⟨_, hexec, ?_⟩
  simp only [State.setLen_len, State.setLen_word, State.setLen_valueOf, hlen]
  refine ⟨hge, hle, fun i hi => ?digit, ?value, ?top, (sameBanksButArray_setArray s bd ds).setLen _,
    fun _ => State.setArray_getX .., State.setArray_logn .., State.setArray_fault ..,
    ⟨State.setArray_pending .., State.setArray_replies ..⟩, State.setArray_draws ..⟩
  case digit =>
    rw [hword i hi, List.getD_eq_getElem _ _ hi]
    exact hdigit _ (List.getElem_mem hi)
  case value => rw [valueOf_setArray, hvalue, valueOf_array, Nat.add_zero]
  case top =>
    refine hlast.imp_right fun h => ?_
    rwa [hword _ (Nat.sub_lt (lt_of_lt_of_le s.length_pos hge) one_pos)]

/-- Settles O36: the loop of rule R122 (`trimCount_spec`), and its answer goes to `LEN` alone. -/
theorem trimDropsLeadingZeros : Obligations.TrimDropsLeadingZeros := by
  intro s bd hs
  have hle := trimCount_le (s.word bd) s.len.toNat
  have hlen := toNat_ofNat_of_le_DEPTH (hle.trans hs)
  refine ⟨_, exec_trim bd hs, ?_⟩
  simp only [State.setLen_len, hlen]
  refine ⟨hle, fun i hi hlt => ?zeros, fun h => ?short, fun h => ?top, fun _ _ _ => State.setLen_word .., fun _ => rfl,
    rfl, rfl, ⟨rfl, rfl⟩, rfl⟩
  case zeros =>
    obtain ⟨-, hzero, -⟩ := trimCount_spec (s.word bd) s.len.toNat (Nat.one_le_of_lt hlt)
    exact hzero i hi hlt
  case short => rw [trimCount_le_one _ h, BitVec.ofNat_toNat, BitVec.setWidth_eq]
  case top =>
    obtain ⟨hone, -, htop⟩ := trimCount_spec (s.word bd) s.len.toNat h
    exact ⟨hone, htop⟩

/-- Settles O37: `NORM` leaves digits with the array's value, and the slots `TRIM` drops hold 0. -/
theorem normalizeAndTrimIsCanonical : Obligations.NormalizeAndTrimIsCanonical := by
  intro s bd hn
  obtain ⟨t, hnorm, hge, hle, hdigit, hvalue, -, -, -, -, hfault, -⟩ := normalizeKeepsTheValue s bd hn
  obtain ⟨u, htrim, hdrop, hzero, -, htop, hbanks, -, -, hfault', -⟩ :=
    trimDropsLeadingZeros t bd (hle.trans (State.length_add_nine_le_DEPTH hn))
  obtain ⟨hone, htop⟩ := htop (le_trans s.length_pos hge)
  have hword : ∀ i, u.word bd i = t.word bd i := fun i => hbanks bd i (Nat.zero_le i)
  have hrun : execAll [.norm bd, .trim bd] s = some u := by
    rw [execAll_cons_of_exec _ hnorm, execAll_cons_of_exec _ htrim, execAll]
  have hsame : valueOf u bd u.len.toNat = valueOf s bd s.length :=
    calc valueOf u bd u.len.toNat = valueOf t bd u.len.toNat := valueOf_congr fun i _ => hword i
      _ = valueOf t bd t.len.toNat := valueOf_eq_of_zeros hdrop hzero
      _ = valueOf s bd s.length := hvalue
  refine ⟨u, hrun, hone, fun i hi => ?digit, ?top, hsame, hfault'.trans hfault⟩
  case digit => rw [hword]; exact hdigit i (lt_of_lt_of_le hi hdrop)
  case top => rwa [hword]

end Sys2Proof.Machine
end

section
/-! Runs of transactions (rules R24 and R40): a sequence the unit performs from one state to another, whatever
the host issues after it. -/

namespace Sys2Proof.Machine

/-- The unit performs the transactions `ts` from `s` and ends in `t`, whatever is pending after them. -/
def Performs (ts : List Transaction) (s t : State) : Prop :=
  ∀ rest, steps ts.length (s.setPending (ts ++ rest)) = some (t.setPending rest)

theorem Performs.steps_eq {ts : List Transaction} {s t : State} (h : Performs ts s t) :
    steps ts.length (s.setPending ts) = some (t.setPending []) := by
  simpa only [List.append_nil] using h []

theorem Performs.nil (s : State) : Performs [] s s := fun _ => rfl

theorem Performs.append {ts us : List Transaction} {s t u : State} (h : Performs ts s t) (h' : Performs us t u) :
    Performs (ts ++ us) s u := by
  intro rest
  rw [List.append_assoc, List.length_append, steps_add _ _ _ _ (h (us ++ rest)), h' rest]

theorem Performs.cons {tr : Transaction} {ts : List Transaction} {s t u : State} (h : Performs [tr] s t)
    (h' : Performs ts t u) : Performs (tr :: ts) s u := h.append h'

/-- One transaction is one step. -/
theorem Performs.of_step {tr : Transaction} {s t : State}
    (h : ∀ rest, step (s.setPending (tr :: rest)) = .next (t.setPending rest)) : Performs [tr] s t :=
  fun rest => steps_succ_of_step 0 (h rest)

/-! ## Writes to a bank -/

theorem performs_write_bank {s : State} (hf : s.fault = 0) (b : BankId) {i : Nat} (hi : i < DEPTH) (v : Word) :
    Performs [.write (bankAddr b i) v] s (s.setWord b i v) := by
  refine .of_step fun rest => ?_
  have hrun : (s.setPending rest).fault = 0 := hf
  rw [step_write rfl, ← State.setPending_setWord]
  exact hostWrite_bank hrun (placeOf_bankAddr b hi)

theorem Memory.writeArray_concat (m : Memory) (i : Nat) (ws : List Word) (w : Word) :
    m.writeArray i (ws ++ [w]) = (m.writeArray i ws).write (i + ws.length) w := by
  induction ws generalizing m i with
  | nil => rfl
  | cons v vs ih =>
    rw [List.cons_append, Memory.writeArray, ih, Memory.writeArray, List.length_cons, Nat.add_right_comm,
      Nat.add_assoc]

theorem State.setArray_concat (s : State) (b : BankId) (ws : List Word) (w : Word) :
    s.setArray b (ws ++ [w]) = (s.setArray b ws).setWord b ws.length w := by
  rw [State.setArray, Memory.writeArray_concat, Nat.zero_add, State.setWord, State.setArray, State.bank_setBank_self,
    State.setBank_setBank]

theorem State.setArray_nil (s : State) (b : BankId) : s.setArray b [] = s := s.setBank_bank b

/-- The words rule R137 loads: the digits, then zeros up to length `n`. -/
def zeroPad (digits : List Word) (n : Nat) : List Word := (List.range n).map (digits.getD · 0)

@[simp] theorem length_zeroPad (digits : List Word) (n : Nat) : (zeroPad digits n).length = n := by
  simp [zeroPad]

theorem getD_zeroPad (digits : List Word) {n i : Nat} (h : i < n) : (zeroPad digits n).getD i 0 = digits.getD i 0 := by
  simp [zeroPad, List.getD_eq_getElem?_getD, h]

theorem zeroPad_succ (digits : List Word) (n : Nat) :
    zeroPad digits (n + 1) = zeroPad digits n ++ [digits.getD n 0] := by
  rw [zeroPad, List.range_succ, List.map_append, List.map_singleton, zeroPad]

theorem loadBank_succ (b : BankId) (digits : List Word) (n : Nat) :
    loadBank b digits (n + 1) = loadBank b digits n ++ [.write (bankAddr b n) (digits.getD n 0)] := by
  rw [loadBank, List.range_succ, List.map_append, List.map_singleton, loadBank]

/-- Loading a bank (rule R137) overwrites its first `n` words. -/
theorem performs_loadBank {s : State} (hf : s.fault = 0) (b : BankId) (digits : List Word) {n : Nat}
    (hn : n ≤ DEPTH) : Performs (loadBank b digits n) s (s.setArray b (zeroPad digits n)) := by
  induction n with
  | zero => rw [show zeroPad digits 0 = [] from rfl, State.setArray_nil]; exact .nil s
  | succ n ih =>
    have hlast := performs_write_bank (s := s.setArray b (zeroPad digits n)) (by simpa using hf) b hn (digits.getD n 0)
    rw [loadBank_succ, zeroPad_succ, State.setArray_concat, length_zeroPad]
    exact (ih (Nat.le_of_succ_le hn)).append hlast

/-! ## Commands -/

theorem performs_issue {s t : State} {i : Instr} (hf : s.fault = 0) (hi : i.WellFormed) (h : exec i s = .next t) :
    Performs [issue i] s t := by
  refine .of_step fun rest => ?_
  obtain ⟨-, hstep⟩ := stepExecutesTheCommandWritten
  rw [hstep (s.setPending (issue i :: rest)) i rest hf hi rfl]
  exact exec_setPending h rest

theorem execAll_cons_eq_some {i : Instr} {is : List Instr} {s u : State} (h : execAll (i :: is) s = some u) :
    ∃ t, exec i s = .next t ∧ execAll is t = some u := by
  rw [execAll] at h
  split at h
  · exact ⟨_, ‹_›, h⟩
  · cases h
  · cases h

theorem execAll_append {is js : List Instr} {s t : State} (h : execAll is s = some t) :
    execAll (is ++ js) s = execAll js t := by
  induction is generalizing s with
  | nil => cases h; rfl
  | cons i is ih =>
    obtain ⟨u, hi, his⟩ := execAll_cons_eq_some h
    rw [List.cons_append, execAll_cons_of_exec _ hi, ih his]

/-- Commands that end with no fault began with none. -/
theorem execAll_fault_zero {is : List Instr} {s t : State} (h : execAll is s = some t) (ht : t.fault = 0) :
    s.fault = 0 := by
  induction is generalizing s with
  | nil => cases h; exact ht
  | cons i is ih =>
    obtain ⟨u, hi, his⟩ := execAll_cons_eq_some h
    exact exec_fault_zero hi (ih his)

/-- Commands written to `CMD` one after the other, none of which takes a fault, run as `execAll` says. -/
theorem performs_issue_all {is : List Instr} {s t : State} (hi : ∀ i ∈ is, i.WellFormed)
    (h : execAll is s = some t) (ht : t.fault = 0) : Performs (is.map issue) s t := by
  induction is generalizing s with
  | nil => cases h; exact .nil _
  | cons i is ih =>
    obtain ⟨hwf, hwfs⟩ := List.forall_mem_cons.1 hi
    obtain ⟨u, hexec, hrest⟩ := execAll_cons_eq_some h
    have hu := execAll_fault_zero hrest ht
    exact (performs_issue (exec_fault_zero hexec hu) hwf hexec).cons (ih hwfs hrest)

/-! ## Reads -/

/-- The words `vs` go back to the host, the first of them first. -/
def replyAll (vs : List Word) (s : State) : State := { s with replies := s.replies ++ vs }

theorem replyAll_nil (s : State) : replyAll [] s = s := by
  rw [replyAll, List.append_nil]

theorem replyAll_cons (v : Word) (vs : List Word) (s : State) : replyAll (v :: vs) s = replyAll vs (reply v s) := by
  rw [replyAll, replyAll, reply_replies, List.append_assoc]
  rfl

theorem sameButFault_replyAll (vs : List Word) (s : State) : SameButFault s (replyAll vs s) :=
  ⟨fun _ => rfl, fun b _ _ => by cases b <;> rfl, rfl, rfl⟩

@[simp] theorem readPlace_reply (v : Word) (s : State) (p : Place) : readPlace (reply v s) p = readPlace s p := by
  cases p <;> simp [readPlace]

theorem performs_read {s : State} {ha : PortAddr} {v : Word} (h : readPlace s (placeOf ha) = some v) :
    Performs [.read ha] s (reply v s) :=
  .of_step fun rest => step_read_legal (s := s.setPending (.read ha :: rest)) rfl (by rwa [readPlace_setPending])

/-- Legal reads answer the words they name and change nothing (rules R36, R39). -/
theorem performs_reads {s : State} {has : List PortAddr} {vs : List Word}
    (h : List.Forall₂ (fun ha v => readPlace s (placeOf ha) = some v) has vs) :
    Performs (has.map .read) s (replyAll vs s) := by
  induction has generalizing s vs with
  | nil =>
    cases h
    rw [replyAll_nil]
    exact .nil s
  | cons ha has ih =>
    obtain ⟨v, vs, hv, hrest, rfl⟩ := List.forall₂_cons_left_iff.1 h
    rw [replyAll_cons]
    exact (performs_read hv).cons (ih (by simpa only [readPlace_reply] using hrest))

end Sys2Proof.Machine
end

section
/-! The moves between a register and a bank (rules R131 and R132) and the pointwise product (rule R130). -/

namespace Sys2Proof.Machine

section
variable {s : State} {ra : Reg}

theorem indexOperand_of_lt (h : (s.getX ra).toNat < DEPTH) : indexOperand ra s = some (s.getX ra).toNat := if_pos h

theorem indexOperand_of_le (h : DEPTH ≤ (s.getX ra).toNat) : indexOperand ra s = none := if_neg (not_lt.2 h)

theorem exec_ldc_lt (rd : Reg) (bd : BankId) (h : (s.getX ra).toNat < DEPTH) :
    exec (.ldc rd bd ra) s = .next (s.setX rd (s.word bd (s.getX ra).toNat)) := by
  simp only [exec, execLdc, indexOperand_of_lt h]

theorem exec_ldc_le (rd : Reg) (bd : BankId) (h : DEPTH ≤ (s.getX ra).toNat) :
    exec (.ldc rd bd ra) s = .next (takeFault .addr s) := by
  simp only [exec, execLdc, indexOperand_of_le h]

theorem exec_stc_lt (rd : Reg) (bd : BankId) (h : (s.getX ra).toNat < DEPTH) :
    exec (.stc rd bd ra) s = .next (s.setWord bd (s.getX ra).toNat (s.getX rd)) := by
  simp only [exec, execStc, indexOperand_of_lt h]

theorem exec_stc_le (rd : Reg) (bd : BankId) (h : DEPTH ≤ (s.getX ra).toNat) :
    exec (.stc rd bd ra) s = .next (takeFault .addr s) := by
  simp only [exec, execStc, indexOperand_of_le h]

end

theorem word_setWord_self (s : State) (b : BankId) (i : Nat) (v : Word) : (s.setWord b i v).word b i = v := by
  rw [State.word_setWord, if_pos ⟨rfl, rfl⟩]

/-- Settles O18: an index in the bank is a write of `x[rd]`, any other one the fault. -/
theorem loadCoefficient : Obligations.LoadCoefficient := by
  refine fun s rd ra bd => ⟨fun h => ?loads, fun h => ⟨_, exec_ldc_le rd bd h, onlyFault_takeFault .addr s⟩⟩
  case loads => exact ⟨_, exec_ldc_lt rd bd h, State.getX_setX_self .., onlyRegister_setX rd s _⟩

/-- Settles O19: an index in the bank is a write of that one word, any other one the fault. -/
theorem storeCoefficient : Obligations.StoreCoefficient := by
  refine fun s rd ra bd => ⟨fun h => ?stores, fun h => ⟨_, exec_stc_le rd bd h, onlyFault_takeFault .addr s⟩⟩
  case stores =>
    exact ⟨_, exec_stc_lt rd bd h, word_setWord_self .., fun b i hne => word_setWord_ne s _ hne,
      fun _ => State.setWord_getX .., ⟨State.setWord_logn .., State.setWord_len ..⟩, State.setWord_fault ..,
      ⟨State.setWord_pending .., State.setWord_replies ..⟩, State.setWord_draws ..⟩

/-- Settles O20: the store changes no register, so the load's index is the store's. -/
theorem loadAfterStore : Obligations.LoadAfterStore := by
  intro s rs rt ra bd h
  have hindex : (s.setWord bd (s.getX ra).toNat (s.getX rs)).getX ra = s.getX ra := State.setWord_getX ..
  rw [execAll_cons_of_exec _ (exec_stc_lt rs bd h), execAll_cons_of_exec _ (exec_ldc_lt rt bd (by rwa [hindex])),
    hindex, word_setWord_self]
  refine ⟨_, rfl, State.getX_setX_self .., fun b i hne => ?_⟩
  rw [State.setX_word, word_setWord_ne s _ hne]

/-- Settles O32: the multiplication of rule R76 in each lane; the products are as many as the elements. -/
theorem pointwiseProduct : Obligations.PointwiseProduct := by
  intro s bd bs hn hf hg
  have hlen := (hf.words.pmul hg.words).length_eq
  refine ⟨_, exec_pmul bd bs hn hf hg, onlyArray_setArray s bd _ hlen, fun i hi => ?_⟩
  rw [State.word_setArray_lt s bd _ hlen i hi, getD_pmulArray _ _ i (by rwa [State.length_array])
    (by rwa [State.length_array]), mulMod_toNat, State.getD_array s bd hi, State.getD_array s bs hi]

end Sys2Proof.Machine
end

section
/-! The host's duties around a multiplication (rules R135 and R139): the length it chooses and the read-back. -/

namespace Sys2Proof.Machine

theorem chooseLogn_eq_some_iff (lenA lenB k : Nat) : chooseLogn lenA lenB = some k ↔
    k ≤ 23 ∧ lenA + lenB ≤ 2 ^ k ∧ ∀ j, j < k → 2 ^ j < lenA + lenB := by
  simp only [chooseLogn, List.find?_range_eq_some, List.mem_range, decide_eq_true_eq, Bool.not_eq_true',
    decide_eq_false_iff_not, not_le, Nat.lt_succ_iff]
  exact and_left_comm

/-- The longest length is the last to be refused. -/
theorem chooseLogn_eq_none_iff (lenA lenB : Nat) : chooseLogn lenA lenB = none ↔ 2 ^ 23 < lenA + lenB := by
  simp only [chooseLogn, List.find?_range_eq_none, Bool.not_eq_true', decide_eq_false_iff_not, not_le,
    Nat.lt_succ_iff]
  exact ⟨fun h => h 23 le_rfl, fun h k hk => lt_of_le_of_lt (Nat.pow_le_pow_right two_pos hk) h⟩

/-- Settles O51: the host searches the lengths in rising order. -/
theorem hostChoosesTheLeastLength : Obligations.HostChoosesTheLeastLength := fun lenA lenB =>
  ⟨chooseLogn_eq_some_iff lenA lenB, chooseLogn_eq_none_iff lenA lenB⟩

/-- The addresses of the read-back, in its order (rule R139). -/
def readBackAddrs (len : Nat) : List PortAddr := 0x3000011 :: 0x3000013 :: (List.range len).map (bankAddr .A)

theorem readBack_eq (len : Nat) : readBack len = (readBackAddrs len).map .read := by
  rw [readBackAddrs, List.map_cons, List.map_cons, List.map_map]
  rfl

theorem length_readBack (len : Nat) : (readBack len).length = 2 + len := by
  simp only [readBack, List.length_cons, List.length_map, List.length_range]
  omega

/-- Settles O54: every read of the read-back is legal, and a legal read changes nothing. -/
theorem readBackAnswersTheDigits : Obligations.ReadBackAnswersTheDigits := by
  intro s hf hlen hp
  have digits : List.Forall₂ (fun ha v => readPlace s (placeOf ha) = some v)
      ((List.range s.len.toNat).map (bankAddr .A)) (resultDigits s) := by
    rw [resultDigits, Memory.readArray, List.forall₂_map_left_iff, List.forall₂_map_right_iff, List.forall₂_same]
    intro i hi
    rw [placeOf_bankAddr .A ((List.mem_range.1 hi).trans_le hlen)]
    rfl
  have answers : List.Forall₂ (fun ha v => readPlace s (placeOf ha) = some v)
      (readBackAddrs s.len.toNat) (0 :: s.len :: resultDigits s) := by
    refine .cons ?_ (.cons ?_ digits)
    · rw [placeOf_fault rfl, readPlace, hf]
      rfl
    · rw [placeOf_len rfl, readPlace]
  have hrun := (performs_reads answers).steps_eq
  rw [← readBack_eq, length_readBack, ← hp] at hrun
  exact ⟨_, hrun, rfl, sameButFault_replyAll (0 :: s.len :: resultDigits s) s, hf, rfl⟩

end Sys2Proof.Machine
end

section
/-! The multiplication (rules R133 to R142): the digits the host loads, the product the transforms leave, and
the canonical digits the carry pipeline makes of it. -/

namespace Sys2Proof.Machine

/-! ## Products of digit arrays -/

/-- Where the occupied lengths fit, the ordinary product of two digit arrays denotes the product of their numbers. -/
theorem sum_product_mul_pow {n lenA lenB : Nat} {a b : Nat → Nat} (x : Nat) (hlen : lenA + lenB ≤ n)
    (ha : ∀ j, lenA ≤ j → j < n → a j = 0) (hb : ∀ j, lenB ≤ j → j < n → b j = 0) :
    ∑ m ∈ Finset.range n, (∑ j ∈ Finset.range (m + 1), a j * b (m - j)) * x ^ m =
      (∑ j ∈ Finset.range n, a j * x ^ j) * ∑ k ∈ Finset.range n, b k * x ^ k := by
  have split : ∀ m ∈ Finset.range n, (∑ j ∈ Finset.range (m + 1), a j * b (m - j)) * x ^ m =
      ∑ j ∈ Finset.range (m + 1), a j * x ^ j * (b (m - j) * x ^ (m - j)) := by
    intro m _
    rw [Finset.sum_mul]
    refine Finset.sum_congr rfl fun j hj => ?_
    rw [mul_mul_mul_comm, ← pow_add, Nat.add_sub_cancel' (Nat.lt_succ_iff.1 (Finset.mem_range.1 hj))]
  have row : ∀ j ∈ Finset.range n, ∑ k ∈ Finset.range (n - j), a j * x ^ j * (b k * x ^ k) =
      a j * x ^ j * ∑ k ∈ Finset.range n, b k * x ^ k := by
    intro j hj
    rw [← Finset.mul_sum]
    by_cases hA : lenA ≤ j
    · simp only [ha j hA (Finset.mem_range.1 hj), zero_mul]
    · congr 1
      refine Finset.sum_subset (Finset.range_mono (Nat.sub_le n j)) fun k hk hout => ?_
      have hout : n - j ≤ k := by simpa using hout
      rw [hb k (by omega) (Finset.mem_range.1 hk), zero_mul]
  rw [Finset.sum_congr rfl split, Finset.sum_range_diag_flip n fun j k => a j * x ^ j * (b k * x ^ k),
    Finset.sum_congr rfl row, ← Finset.sum_mul]

/-- Rule R6 (f): a coefficient of a product of digit arrays is below `MOD`. -/
theorem sum_product_lt_MOD {m : Nat} {a b : Nat → Nat} (hm : m < 2 ^ 23) (ha : ∀ j, j ≤ m → a j ≤ 9)
    (hb : ∀ j, j ≤ m → b j ≤ 9) : ∑ j ∈ Finset.range (m + 1), a j * b (m - j) < MOD := by
  have term : ∀ j ∈ Finset.range (m + 1), a j * b (m - j) ≤ 81 := fun j hj =>
    Nat.mul_le_mul (ha j (Nat.lt_succ_iff.1 (Finset.mem_range.1 hj))) (hb (m - j) (Nat.sub_le m j))
  calc ∑ j ∈ Finset.range (m + 1), a j * b (m - j)
      ≤ (m + 1) * 81 := by simpa using Finset.sum_le_card_nsmul _ _ 81 term
    _ ≤ 2 ^ 23 * 81 := Nat.mul_le_mul_right 81 hm
    _ < MOD := by decide

/-! ## A bank that holds a digit array -/

/-- The array of bank `b` is the digits `ds`, padded with zeros (rule R137). -/
structure HoldsDigits (s : State) (b : BankId) (ds : List Word) : Prop where
  word_eq : ∀ i, i < s.length → s.word b i = ds.getD i 0
  digit : ∀ d ∈ ds, d.toNat ≤ 9
  fits : ds.length ≤ s.length

section
variable {s : State} {b : BankId} {ds : List Word}

theorem HoldsDigits.toNat_le_nine (h : HoldsDigits s b ds) {i : Nat} (hi : i < s.length) :
    (s.word b i).toNat ≤ 9 := by
  rw [h.word_eq i hi]
  by_cases hlt : i < ds.length
  · rw [List.getD_eq_getElem _ _ hlt]
    exact h.digit _ (List.getElem_mem hlt)
  · rw [List.getD_eq_default _ _ (not_lt.1 hlt)]
    exact Nat.zero_le 9

theorem HoldsDigits.toNat_eq_zero (h : HoldsDigits s b ds) {i : Nat} (hle : ds.length ≤ i) (hi : i < s.length) :
    (s.word b i).toNat = 0 := by
  rw [h.word_eq i hi, List.getD_eq_default _ _ hle]
  rfl

theorem HoldsDigits.fieldArray (h : HoldsDigits s b ds) : FieldArray s b := fun _ hi =>
  lt_of_le_of_lt (h.toNat_le_nine hi) (by decide)

/-- The padding adds nothing to the number. -/
theorem HoldsDigits.valueOf_eq (h : HoldsDigits s b ds) : valueOf s b s.length = listValue ds := by
  rw [valueOf_eq_sum, listValue_eq_sum]
  symm
  refine Finset.sum_subset_zero_on_sdiff (Finset.range_mono h.fits) (fun i hi => ?padding) fun i hi => ?digits
  case padding =>
    obtain ⟨hlt, hge⟩ := Finset.mem_sdiff.1 hi
    rw [h.toNat_eq_zero (by simpa using hge) (Finset.mem_range.1 hlt), zero_mul]
  case digits => rw [h.word_eq i ((Finset.mem_range.1 hi).trans_le h.fits)]

theorem holdsDigits_setArray (hdigit : ∀ d ∈ ds, d.toNat ≤ 9) (hfits : ds.length ≤ s.length) :
    HoldsDigits (s.setArray b (zeroPad ds s.length)) b ds where
  word_eq i hi := by
    rw [State.length_setArray] at hi
    rw [State.word_setArray_lt s b _ (length_zeroPad ds _) i hi, getD_zeroPad ds hi]
  digit := hdigit
  fits := by rwa [State.length_setArray]

theorem HoldsDigits.setArray_ne (h : HoldsDigits s b ds) {c : BankId} (hc : b ≠ c) (ws : List Word) :
    HoldsDigits (s.setArray c ws) b ds where
  word_eq i hi := by
    rw [State.length_setArray] at hi
    rw [State.word_setArray_ne s ws hc, h.word_eq i hi]
  digit := h.digit
  fits := by rw [State.length_setArray]; exact h.fits

end

/-! ## The commands of rule R138 -/

/-- The transforms leave an array that denotes the product: the coefficients are exact (rules R110, R142). -/
theorem execAll_product {s : State} {a b : List Word} (hn : s.logLength ≤ 23) (hA : HoldsDigits s .A a)
    (hB : HoldsDigits s .B b) (hfit : a.length + b.length ≤ s.length) :
    ∃ t, execAll [.ntt .A .fwd, .ntt .B .fwd, .pmul .A .B, .ntt .A .inv] s = some t ∧ t.logLength = s.logLength ∧
      t.fault = s.fault ∧ valueOf t .A t.length = listValue a * listValue b := by
  obtain ⟨t, hrun, hlog, hfault, harray, -⟩ := execAll_convolution hn hA.fieldArray hB.fieldArray
  have hlength : t.length = s.length := by rw [State.length, hlog, State.length]
  have hzA : ∀ j, a.length ≤ j → j < s.length → (s.word .A j).toNat = 0 := fun _ => hA.toNat_eq_zero
  have hzB : ∀ j, b.length ≤ j → j < s.length → (s.word .B j).toNat = 0 := fun _ => hB.toNat_eq_zero
  have coefficient : ∀ m ∈ Finset.range s.length, (t.word .A m).toNat * 10 ^ m =
      (∑ j ∈ Finset.range (m + 1), (s.word .A j).toNat * (s.word .B (m - j)).toNat) * 10 ^ m := by
    intro m hm
    have hm := Finset.mem_range.1 hm
    have hlt := sum_product_lt_MOD (a := fun j => (s.word .A j).toNat) (b := fun j => (s.word .B j).toNat)
      (hm.trans_le (Nat.pow_le_pow_right two_pos hn)) (fun j hj => hA.toNat_le_nine (hj.trans_lt hm))
      (fun j hj => hB.toNat_le_nine (hj.trans_lt hm))
    rw [← State.getD_array t .A (hlength ▸ hm), harray, toNat_convolution hn hA.fieldArray hB.fieldArray hm,
      sum_cyclic_eq_sum_product (a := fun j => (s.word .A j).toNat) (b := fun j => (s.word .B j).toNat) hfit hzA hzB hm,
      Nat.mod_eq_of_lt hlt]
  refine ⟨t, hrun, hlog, hfault, ?_⟩
  rw [hlength, valueOf_eq_sum, Finset.sum_congr rfl coefficient, sum_product_mul_pow 10 hfit hzA hzB,
    ← valueOf_eq_sum, ← valueOf_eq_sum, hA.valueOf_eq, hB.valueOf_eq]

@[simp] theorem length_resultDigits (s : State) : (resultDigits s).length = s.len.toNat := s.bankA.length_readArray _

theorem listValue_resultDigits (s : State) : listValue (resultDigits s) = valueOf s .A s.len.toNat :=
  (valueOf_eq_listValue s .A s.len.toNat).symm

/-- The result digits are canonical where the words of bank `A` below `LEN` are (rule R123). -/
theorem canonicalDigits_resultDigits {s : State} (hone : 1 ≤ s.len.toNat)
    (hdigit : ∀ i, i < s.len.toNat → (s.word .A i).toNat ≤ 9)
    (htop : s.len.toNat = 1 ∨ s.word .A (s.len.toNat - 1) ≠ 0) : CanonicalDigits (resultDigits s) := by
  refine ⟨List.length_pos_iff.1 ((length_resultDigits s).symm ▸ hone), fun w hw => ?digit, ?top⟩
  case digit =>
    obtain ⟨i, hi, rfl⟩ := List.mem_map.1 hw
    exact hdigit i (List.mem_range.1 hi)
  case top =>
    rw [length_resultDigits]
    refine htop.imp_right fun h => ?_
    rwa [resultDigits, Memory.getD_readArray _ (Nat.sub_lt hone one_pos)]

/-- The whole sequence leaves the product's canonical digits. -/
theorem execAll_pipelineCommands {s : State} {a b : List Word} (hn : s.logLength ≤ 23) (hA : HoldsDigits s .A a)
    (hB : HoldsDigits s .B b) (hfit : a.length + b.length ≤ s.length) :
    ∃ t, execAll pipelineCommands s = some t ∧ t.fault = s.fault ∧ CanonicalDigits (resultDigits t) ∧
      listValue (resultDigits t) = listValue a * listValue b := by
  obtain ⟨t, htransform, hlog, hfault, hvalue⟩ := execAll_product hn hA hB hfit
  obtain ⟨u, hcarry, hone, hdigit, htop, hsame, hfault'⟩ := normalizeAndTrimIsCanonical t .A (hlog ▸ hn)
  exact ⟨u, (execAll_append (js := [.norm .A, .trim .A]) htransform).trans hcarry, hfault'.trans hfault,
    canonicalDigits_resultDigits hone hdigit htop, by rw [listValue_resultDigits, hsame, hvalue]⟩

/-! ## The transactions of rules R136 to R138 -/

theorem multiplyTransactions_eq {textA textB : List Char} {a b : List Word} {logn : Nat} (ha : parse textA = some a)
    (hb : parse textB = some b) (hlogn : chooseLogn a.length b.length = some logn) :
    multiplyTransactions textA textB = some (issue (.setn logn) :: (loadBank .A a (2 ^ logn) ++
      loadBank .B b (2 ^ logn) ++ pipelineCommands.map issue)) := by
  simp only [multiplyTransactions, ha, hb, hlogn, Option.bind_eq_bind, Option.bind_some]

/-- Loading digits into a bank leaves the digits of the other bank as they are. -/
theorem performs_loadBank_digits {s : State} (hf : s.fault = 0) (hn : s.logLength ≤ 23) (b : BankId) {ds : List Word}
    (hdigit : ∀ d ∈ ds, d.toNat ≤ 9) (hfits : ds.length ≤ s.length) :
    ∃ t, Performs (loadBank b ds s.length) s t ∧ t.logn = s.logn ∧ t.fault = 0 ∧ HoldsDigits t b ds ∧
      ∀ c, c ≠ b → ∀ es, HoldsDigits s c es → HoldsDigits t c es :=
  ⟨_, performs_loadBank hf b ds (State.length_le_DEPTH hn), State.setArray_logn .., (State.setArray_fault ..).trans hf,
    holdsDigits_setArray hdigit hfits, fun _ hc _ h => h.setArray_ne hc _⟩

/-- The two loads leave the zero-padded digits in both banks. -/
theorem performs_loadBanks {s : State} (hf : s.fault = 0) (hn : s.logLength ≤ 23) {a b : List Word}
    (ha : ∀ d ∈ a, d.toNat ≤ 9) (hb : ∀ d ∈ b, d.toNat ≤ 9) (hfit : a.length + b.length ≤ s.length) :
    ∃ t, Performs (loadBank .A a s.length ++ loadBank .B b s.length) s t ∧ t.logLength = s.logLength ∧
      t.fault = 0 ∧ HoldsDigits t .A a ∧ HoldsDigits t .B b := by
  obtain ⟨u, hloadA, hlogA, hfA, hA, -⟩ := performs_loadBank_digits hf hn .A ha (by omega)
  have hlength : u.length = s.length := State.length_eq s u hlogA
  obtain ⟨t, hloadB, hlogB, hfB, hB, hother⟩ :=
    performs_loadBank_digits hfA (by rwa [State.logLength_eq s u hlogA]) .B hb (by omega)
  rw [hlength] at hloadB
  exact ⟨t, hloadA.append hloadB, State.logLength_eq s t (hlogB.trans hlogA), hfB, hother .A (by decide) a hA, hB⟩

/-- `SETN` and the two loads (rules R136 and R137). -/
theorem performs_load {s : State} (hf : s.fault = 0) {a b : List Word} {logn : Nat} (hlogn : logn ≤ 23)
    (ha : ∀ d ∈ a, d.toNat ≤ 9) (hb : ∀ d ∈ b, d.toNat ≤ 9) (hfit : a.length + b.length ≤ 2 ^ logn) :
    ∃ t, Performs (issue (.setn logn) :: (loadBank .A a (2 ^ logn) ++ loadBank .B b (2 ^ logn))) s t ∧
      t.logLength = logn ∧ t.fault = 0 ∧ HoldsDigits t .A a ∧ HoldsDigits t .B b := by
  have hwf : (Instr.setn logn).WellFormed := decide_eq_true (by omega : logn < 32)
  have hlog := s.logLength_setLogn hlogn
  have hlength : (s.setLogn (BitVec.ofNat 5 logn)).length = 2 ^ logn := by rw [State.length, hlog]
  rw [← hlength] at hfit ⊢
  obtain ⟨t, hload, hlog', ht⟩ :=
    performs_loadBanks (s := s.setLogn (BitVec.ofNat 5 logn)) hf (hlog.le.trans hlogn) ha hb hfit
  exact ⟨t, (performs_issue hf hwf (exec_setn_le s hlogn)).cons hload, hlog'.trans hlog, ht⟩

/-- A run of the multiplication from any state with `FAULT = 0`: no fault, and the product's canonical digits. -/
theorem performs_multiply {s : State} (hf : s.fault = 0) (a b : Nat)
    (hsize : (Nat.toDigits 10 a).length + (Nat.toDigits 10 b).length ≤ 2 ^ 23) :
    ∃ ts t, multiplyTransactions (Nat.toDigits 10 a) (Nat.toDigits 10 b) = some ts ∧ Performs ts s t ∧
      t.fault = 0 ∧ CanonicalDigits (resultDigits t) ∧ listValue (resultDigits t) = a * b := by
  obtain ⟨da, hparseA, hlenA, hdigitA, hvalueA⟩ := parse_toDigits a
  obtain ⟨db, hparseB, hlenB, hdigitB, hvalueB⟩ := parse_toDigits b
  rw [← hlenA, ← hlenB] at hsize
  obtain ⟨logn, hchoose⟩ :=
    Option.ne_none_iff_exists'.1 (mt (chooseLogn_eq_none_iff da.length db.length).1 (not_lt.2 hsize))
  obtain ⟨hlogn, hfit, -⟩ := (chooseLogn_eq_some_iff _ _ _).1 hchoose
  obtain ⟨u, hload, hlog, hfault, hA, hB⟩ := performs_load hf hlogn hdigitA hdigitB hfit
  obtain ⟨t, hexec, hfault', hcanonical, hvalue⟩ :=
    execAll_pipelineCommands (hlog ▸ hlogn) hA hB (by rw [State.length, hlog]; exact hfit)
  have ht : t.fault = 0 := hfault'.trans hfault
  have hwf : ∀ i ∈ pipelineCommands, i.WellFormed := by decide
  exact ⟨_, t, multiplyTransactions_eq hparseA hparseB hchoose, hload.append (performs_issue_all hwf hexec ht), ht,
    hcanonical, by rw [hvalue, hvalueA, hvalueB]⟩

/-- Settles O52: the run leaves the product's canonical digits, which render as its decimal string. -/
theorem multiplicationIsExact : Obligations.MultiplicationIsExact := by
  intro s a b hf hsize
  obtain ⟨ts, t, hts, hrun, ht, hcanonical, hvalue⟩ := performs_multiply hf a b hsize
  refine ⟨ts, _, hts, hrun.steps_eq, ht, rfl, ?_⟩
  rw [← hvalue]
  exact render_eq_toDigits hcanonical

/-! ## The length of the product -/

theorem length_render (digits : List Word) : (render digits).length = digits.length := by
  simp [render]

theorem lt_pow_length_toDigits (a : Nat) : a < 10 ^ (Nat.toDigits 10 a).length :=
  (Nat.length_toDigits_le_iff (by decide) Nat.length_toDigits_pos).1 le_rfl

theorem pow_le_of_lt_length_toDigits {a k : Nat} (ha : a ≠ 0) (hk : k < (Nat.toDigits 10 a).length) : 10 ^ k ≤ a := by
  rcases Nat.eq_zero_or_pos k with rfl | hpos
  · exact Nat.one_le_iff_ne_zero.2 ha
  · exact not_lt.1 (mt (Nat.length_toDigits_le_iff (by decide) hpos).2 (not_le.2 hk))

theorem length_toDigits_mul_le (a b : Nat) :
    (Nat.toDigits 10 (a * b)).length ≤ (Nat.toDigits 10 a).length + (Nat.toDigits 10 b).length := by
  rw [Nat.length_toDigits_le_iff (by decide) (Nat.add_pos_left Nat.length_toDigits_pos _), pow_add]
  exact Nat.mul_lt_mul'' (lt_pow_length_toDigits a) (lt_pow_length_toDigits b)

theorem le_length_toDigits_mul {a b : Nat} (ha : a ≠ 0) (hb : b ≠ 0) :
    (Nat.toDigits 10 a).length + (Nat.toDigits 10 b).length ≤ (Nat.toDigits 10 (a * b)).length + 1 := by
  have hposA : 0 < (Nat.toDigits 10 a).length := Nat.length_toDigits_pos
  have hposB : 0 < (Nat.toDigits 10 b).length := Nat.length_toDigits_pos
  have hge := Nat.mul_le_mul (pow_le_of_lt_length_toDigits ha (Nat.sub_lt hposA one_pos))
    (pow_le_of_lt_length_toDigits hb (Nat.sub_lt hposB one_pos))
  rw [← pow_add] at hge
  have hlt := (Nat.pow_lt_pow_iff_right (by decide)).1 (hge.trans_lt (lt_pow_length_toDigits (a * b)))
  omega

/-- Settles O53: `LEN` is the length of the rendered result, the decimal string of the product. -/
theorem productLength : Obligations.ProductLength := by
  intro s a b hf hsize
  obtain ⟨ts, t, hts, hrun, -, -, hrender⟩ := multiplicationIsExact s a b hf hsize
  have hlen : t.len.toNat = (Nat.toDigits 10 (a * b)).length := by
    rw [← hrender, length_render, length_resultDigits]
  refine ⟨ts, t, hts, hrun, fun ha hb => ?nonzero, fun h => ?zero⟩
  case nonzero =>
    have hle := length_toDigits_mul_le a b
    have hge := le_length_toDigits_mul ha hb
    omega
  case zero => rw [hlen, Nat.mul_eq_zero.2 h, Nat.toDigits_zero, List.length_singleton]

end Sys2Proof.Machine
end

section
/-! A halted unit (rules R157 and R158): every transaction but `Reset` keeps what the unit holds, and so does
every run without `Reset`. -/

namespace Sys2Proof.Machine

/-- Everything the unit holds, `FAULT` included, is unchanged; the host's side of the port may differ. -/
def SameUnit (s t : State) : Prop := t.fault = s.fault ∧ SameButFault s t

theorem SameUnit.refl (s : State) : SameUnit s s := ⟨rfl, fun _ => rfl, fun _ _ _ => rfl, rfl, rfl⟩

theorem SameUnit.trans {s t u : State} (h : SameUnit s t) (h' : SameUnit t u) : SameUnit s u := by
  obtain ⟨hfault, hregs, hbanks, hlogn, hlen⟩ := h
  obtain ⟨hfault', hregs', hbanks', hlogn', hlen'⟩ := h'
  exact ⟨hfault'.trans hfault, fun r => (hregs' r).trans (hregs r),
    fun b i hi => (hbanks' b i hi).trans (hbanks b i hi), hlogn'.trans hlogn, hlen'.trans hlen⟩

theorem sameUnit_setPending (s : State) (ts : List Transaction) : SameUnit s (s.setPending ts) :=
  ⟨rfl, fun _ => rfl, fun _ _ _ => by simp, rfl, rfl⟩

theorem sameUnit_reply (v : Word) (s : State) : SameUnit s (reply v s) := ⟨rfl, sameButFault_reply v s⟩

theorem sameUnit_addDraws (s : State) (k : Nat) : SameUnit s (s.addDraws k) :=
  ⟨rfl, fun _ => rfl, fun _ _ _ => by simp, rfl, rfl⟩

/-- A read in a halted unit is answered, legal or not, and takes no fault. -/
theorem hostRead_halted {s : State} (ha : PortAddr) (hf : s.fault ≠ 0) :
    SameUnit s (hostRead ha s) ∧ (hostRead ha s).pending = s.pending := by
  cases hread : readPlace s (placeOf ha) with
  | some v => rw [hostRead_legal hread]; exact ⟨sameUnit_reply v s, rfl⟩
  | none =>
    have answered : SameUnit s ((reply (Config.freeWord s.draws 0) s).addDraws 1) :=
      (sameUnit_reply _ s).trans (sameUnit_addDraws _ 1)
    rw [hostRead_illegal hread, illegalAccess_halted (answered.1 ▸ hf)]
    exact ⟨answered, rfl⟩

/-- Settles O42: a halted write is discarded, and a halted read answers and does nothing else. -/
theorem haltedUnitDiscards : Obligations.HaltedUnitDiscards := by
  intro s tr rest hf hp hreset
  have issued := sameUnit_setPending s rest
  cases tr with
  | read ha =>
    obtain ⟨hkeep, hpending⟩ := hostRead_halted (s := s.setPending rest) ha hf
    obtain ⟨hfault, hbut⟩ := issued.trans hkeep
    refine ⟨_, step_read hp, hfault, hbut, hpending, nofun, fun _ v heq hread => ?_⟩
    cases heq
    rw [hostRead_legal (v := v) (by rwa [readPlace_setPending])]
    rfl
  | write ha v =>
    have hstep : step s = .next (s.setPending rest) := (step_write hp).trans (hostWrite_halted ha v hf)
    exact ⟨_, hstep, issued.1, issued.2, rfl, fun _ _ _ => ⟨rfl, rfl⟩, nofun⟩
  | reset => exact absurd rfl hreset

/-- With nothing pending the unit waits. -/
theorem step_of_pending_nil {s : State} (h : s.pending = []) : step s = .next s := by
  simp only [step, serve, h]

/-- A halted unit with no `Reset` pending steps to a state with the same contents and no `Reset` pending. -/
theorem step_halted {s : State} (hf : s.fault ≠ 0) (hr : Transaction.reset ∉ s.pending) :
    ∃ t, step s = .next t ∧ SameUnit s t ∧ Transaction.reset ∉ t.pending := by
  cases hp : s.pending with
  | nil => exact ⟨s, step_of_pending_nil hp, .refl s, hr⟩
  | cons tr rest =>
    rw [hp, List.mem_cons, not_or] at hr
    obtain ⟨hfirst, hrest⟩ := hr
    obtain ⟨t, hstep, hfault, hbut, hpending, -⟩ := haltedUnitDiscards s tr rest hf hp (Ne.symm hfirst)
    exact ⟨t, hstep, ⟨hfault, hbut⟩, hpending ▸ hrest⟩

/-- Settles O43: by induction on the number of steps, each of which keeps the unit and leaves no `Reset` pending. -/
theorem onlyResetEndsTheHalt : Obligations.OnlyResetEndsTheHalt := by
  intro k
  induction k with
  | zero =>
    intro s t _ _ hrun
    cases hrun
    exact SameUnit.refl s
  | succ k ih =>
    intro s t hf hr hrun
    obtain ⟨u, hstep, hkeep, hru⟩ := step_halted hf hr
    rw [steps_succ_of_step k hstep] at hrun
    have hfu : u.fault ≠ 0 := hkeep.1 ▸ hf
    exact hkeep.trans (ih u t hfu hru hrun)

end Sys2Proof.Machine
end

section
/-! The `Reset` transaction (rule R170). -/

namespace Sys2Proof.Machine

/-- Settles O44: the step is `hostReset` of the state without the issued `Reset`, halted or not. -/
theorem resetTransaction : Obligations.ResetTransaction := by
  intro s rest hp
  exact ⟨hostReset (s.setPending rest), step_reset hp, hostReset_fault _, hostReset_logn _, hostReset_len _,
    hostReset_pending _, hostReset_replies _⟩

end Sys2Proof.Machine
end

section
/-! The idle unit, the states with `LOGN > 23` or `LEN > DEPTH` that no run reaches, and the state at reset
(rules R18, R19 and R25). -/

namespace Sys2Proof.Machine

/-! ## Waiting -/

/-- Settles O7: with nothing to serve the step answers the state it began in. -/
theorem idleUnitWaits : Obligations.IdleUnitWaits := fun _ => step_of_pending_nil

/-! ## Beyond the bank -/

/-- The array of a state with `LOGN > 23` is longer than a bank. -/
theorem State.DEPTH_lt_length {s : State} (h : 23 < s.logLength) : DEPTH < s.length :=
  calc DEPTH < 2 ^ 24 := by decide
    _ ≤ s.length := Nat.pow_le_pow_right (by decide) h

/-- Where the array does not exist a vector command stops, whatever its check and its operation. -/
theorem vectorOp_beyond (b : BankId) (ok : Bool) (f : List Word → List Word) {s : State} (h : 23 < s.logLength) :
    vectorOp b ok f s = .fault .lengthBeyondBank := if_neg (not_le.2 h)

/-- Where the array is longer than the bank `NORM` runs past the bank's end (rule R120). -/
theorem exec_norm_beyond (bd : BankId) {s : State} (h : 23 < s.logLength) :
    exec (.norm bd) s = .next (takeFault .addr s) := by
  have hloop : normLoop DEPTH (s.array bd) 0 = none :=
    normLoop_none _ _ _ (by rw [State.length_array]; exact State.DEPTH_lt_length h)
  simp only [exec, execNorm, hloop]

theorem exec_trim_beyond (bd : BankId) {s : State} (h : DEPTH < s.len.toNat) :
    exec (.trim bd) s = .fault .countBeyondBank := if_neg (not_le.2 h)

/-- Settles O38: the vector commands share the check of `vectorOp`, the loop of `NORM` runs out of slots, and
`TRIM` checks `LEN`. -/
theorem beyondTheBank : Obligations.BeyondTheBank := by
  intro s bd bs dir
  refine ⟨fun hn => ⟨?brev, ?bfly, ?scal, ?ntt, ?pmul, ?norm⟩, exec_trim_beyond bd⟩
  case brev => exact vectorOp_beyond bd true (brevArray s.logLength) hn
  case bfly => exact vectorOp_beyond bd (rangeCheck s bd) (bflyArray dir s.logLength) hn
  case scal => exact vectorOp_beyond bd (rangeCheck s bd) (scaleArray s.logLength) hn
  case ntt => exact vectorOp_beyond bd (rangeCheck s bd) (nttArray dir s.logLength) hn
  case pmul => exact vectorOp_beyond bd (rangeCheck s bd && rangeCheck s bs) (fun a => pmulArray a (s.array bs)) hn
  case norm => exact ⟨_, exec_norm_beyond bd hn, onlyFault_takeFault .addr s⟩

/-! ## Reset -/

/-- Settles O41: `LOGN`, `LEN` and `FAULT` are 0, and a bank that lists no word is in canonical form. -/
theorem resetMeetsTheInvariant : Obligations.ResetMeetsTheInvariant :=
  ⟨Nat.zero_le _, Nat.zero_le _, Nat.zero_le _, Memory.wf_of_cells_nil rfl, Memory.wf_of_cells_nil rfl⟩

end Sys2Proof.Machine
end
